-- ==== Sys2Proof/Word.lean ====
section
/-! DEFINITION. The bit-vector types of the block: bytes, 32-bit registers, 64-bit operands and results
(10_state.md R13, R14). -/

namespace Sys2Proof

/-- One byte of wire data or of a register value. -/
abbrev Byte := BitVec 8

/-- A register, a command word or a stored word (R13, R43). -/
abbrev Word := BitVec 32

/-- Operand A and the result RES, each split over two registers (R14). -/
abbrev DWord := BitVec 64

end Sys2Proof
end

