-- ==== Sys2Proof/Syntax.lean ====
section
/-! DEFINITION. The commands of the block (00_scope.md R2, 30_encoding.md R43 to R48), one constructor per row of
the opcode table, with the operands the assembler syntax of R53 gives them, and the pseudo-commands of R54. -/

namespace Sys2Proof

/-- The byte counts of format ES: n = 2^SZ, one of 1, 2, 4, 8 (R45). -/
inductive Size where
  | one
  | two
  | four
  | eight
  deriving DecidableEq, Repr

/-- The byte count n (R45, R47). -/
def Size.bytes : Size → Nat
  | .one => 1
  | .two => 2
  | .four => 4
  | .eight => 8

/-- A command with its configuration. The data operands A and B are never in the command (R47). -/
inductive Instr where
  /-- `bfx POS, BITS` (R58) -/
  | bfx (pos bits : Nat)
  /-- `bfd POS, BITS` (R59) -/
  | bfd (pos bits : Nat)
  /-- `tobe SIZE` (R64) -/
  | tobe (size : Size)
  /-- `frombe SIZE` (R65) -/
  | frombe (size : Size)
  /-- `toint N, R`, and `toint.sat N, R` when `sat` is true (R72) -/
  | toint (n r : Nat) (sat : Bool)
  /-- `tofp N, R` (R74) -/
  | tofp (n r : Nat)
  deriving DecidableEq, Repr

namespace Instr

/-- `getflag POS` is `bfx POS, 1` (R54). -/
def getflag (pos : Nat) : Instr := .bfx pos 1

/-- `putflag POS` is `bfd POS, 1` (R54). -/
def putflag (pos : Nat) : Instr := .bfd pos 1

/-- `getword` is `bfx 31, 32` (R54). -/
def getword : Instr := .bfx 31 32

/-- `putword` is `bfd 31, 32` (R54). -/
def putword : Instr := .bfd 31 32

end Instr

end Sys2Proof
end

