-- ==== Sys2Proof/WellFormed.lean ====
section
/-! DEFINITION. Which commands a command word can hold (30_encoding.md R44 to R46: `wf`), and which an assembler
accepts (R53: `assembles`). A bit-field command with BITS > POS + 1 is well formed, since a raw CMD write can hold
it; it completes with BAD_FIELD (R53, R56). -/

namespace Sys2Proof.Instr

/-- POS in 0 … 31 and BITS in 1 … 32 (R44). -/
def bitFieldFits (pos bits : Nat) : Bool := decide (pos ≤ 31) && decide (1 ≤ bits) && decide (bits ≤ 32)

/-- N in 1 … 64 and R in 0 … 63 (R46). -/
def fixedPointFits (n r : Nat) : Bool := decide (1 ≤ n) && decide (n ≤ 64) && decide (r ≤ 63)

/-- The operands fit the fields of the command's format. -/
def wf : Instr → Bool
  | .bfx pos bits => bitFieldFits pos bits
  | .bfd pos bits => bitFieldFits pos bits
  | .tobe _ => true
  | .frombe _ => true
  | .toint n r _ => fixedPointFits n r
  | .tofp n r => fixedPointFits n r

/-- The constraints of the assembler syntax, outside which an assembler refuses (R53). -/
def assembles : Instr → Bool
  | .bfx pos bits => bitFieldFits pos bits && decide (bits ≤ pos + 1)
  | .bfd pos bits => bitFieldFits pos bits && decide (bits ≤ pos + 1)
  | .tobe _ => true
  | .frombe _ => true
  | .toint n r _ => fixedPointFits n r
  | .tofp n r => fixedPointFits n r

end Sys2Proof.Instr
end

