-- ==== Sys2Proof/Decode.lean ====
section
/-! DEFINITION. The decoder of a command word (30_encoding.md R43 to R52), total and rejecting by name, and after
it the encoder (R44 to R46, R53). -/

namespace Sys2Proof

/-! ## The opcode map (R48) -/

/-- The six operations OP can name. -/
inductive Op where
  | bfx
  | bfd
  | tobe
  | frombe
  | toint
  | tofp
  deriving DecidableEq, Repr

namespace Op

/-- The OP field that names the operation (R48). -/
def code : Op → BitVec 4
  | .bfx => 0x1#4
  | .bfd => 0x2#4
  | .tobe => 0x3#4
  | .frombe => 0x4#4
  | .toint => 0x5#4
  | .tofp => 0x6#4

/-- The operation an OP field names; 0x0 and 0x7 … 0xF name none (R48, R49). -/
def ofCode (op : BitVec 4) : Option Op :=
  match op.toNat with
  | 1 => some .bfx
  | 2 => some .bfd
  | 3 => some .tobe
  | 4 => some .frombe
  | 5 => some .toint
  | 6 => some .tofp
  | _ => none

/-- `RESV(op)`: the bits that must be 0 in the operation's format (R44 to R46, R52). -/
def reserved : Op → Word
  | .bfx => 0x0FFFFC00#32
  | .bfd => 0x0FFFFC00#32
  | .tobe => 0x0FFFFFFC#32
  | .frombe => 0x0FFFFFFC#32
  | .toint => 0x0FFFE000#32
  | .tofp => 0x0FFFF000#32

/-- The `mask` column of the opcode map (R48). -/
def maskWord : Op → Word
  | .bfx => 0xFFFFFC00#32
  | .bfd => 0xFFFFFC00#32
  | .tobe => 0xFFFFFFFC#32
  | .frombe => 0xFFFFFFFC#32
  | .toint => 0xFFFFE000#32
  | .tofp => 0xFFFFF000#32

/-- The `match` column of the opcode map (R48). -/
def matchWord : Op → Word
  | .bfx => 0x10000000#32
  | .bfd => 0x20000000#32
  | .tobe => 0x30000000#32
  | .frombe => 0x40000000#32
  | .toint => 0x50000000#32
  | .tofp => 0x60000000#32

end Op

/-- The operation a command belongs to. -/
def Instr.op : Instr → Op
  | .bfx _ _ => .bfx
  | .bfd _ _ => .bfd
  | .tobe _ => .tobe
  | .frombe _ => .frombe
  | .toint _ _ _ => .toint
  | .tofp _ _ => .tofp

/-! ## Fields of a command word (R44 to R47) -/

namespace Field

/-- OP, bits 31:28, in every format (R43). -/
def op (c : Word) : BitVec 4 := c.extractLsb' 28 4

/-- Pos, bits 4:0 of format BF. -/
def pos (c : Word) : Nat := (c.extractLsb' 0 5).toNat

/-- Bits = BITSM1 + 1, BITSM1 in bits 9:5 of format BF. -/
def bits (c : Word) : Nat := (c.extractLsb' 5 5).toNat + 1

/-- n = 2^SZ, SZ in bits 1:0 of format ES. -/
def size (c : Word) : Size :=
  match (c.extractLsb' 0 2).toNat with
  | 0 => .one
  | 1 => .two
  | 2 => .four
  | _ => .eight

/-- N = NM1 + 1, NM1 in bits 5:0 of format FX. -/
def n (c : Word) : Nat := (c.extractLsb' 0 6).toNat + 1

/-- R, bits 11:6 of format FX. -/
def r (c : Word) : Nat := (c.extractLsb' 6 6).toNat

/-- SAT, bit 12 of TOINT. -/
def sat (c : Word) : Bool := c.getLsbD 12

end Field

/-! ## The decoder (R52) -/

/-- What a command word is: a command, or one of the two rejections of R49 and R50. -/
inductive Decoded where
  | command (i : Instr)
  /-- OP names no operation: the write completes with `fail ILLEGAL_OPCODE` (R49). -/
  | illegalOpcode
  /-- A reserved bit of the format is 1: the write completes with `fail RESERVED_FIELD` (R50). -/
  | reservedField
  deriving DecidableEq, Repr

/-- The command of operation `op` with the fields of `c` (R47). -/
def Op.instr (op : Op) (c : Word) : Instr :=
  match op with
  | .bfx => .bfx (Field.pos c) (Field.bits c)
  | .bfd => .bfd (Field.pos c) (Field.bits c)
  | .tobe => .tobe (Field.size c)
  | .frombe => .frombe (Field.size c)
  | .toint => .toint (Field.n c) (Field.r c) (Field.sat c)
  | .tofp => .tofp (Field.n c) (Field.r c)

/-- Decoding of a command word: OP first, then the reserved bits of OP's format (R52, R80). -/
def decode (c : Word) : Decoded :=
  match Op.ofCode (Field.op c) with
  | none => .illegalOpcode
  | some op => if c &&& op.reserved ≠ 0#32 then .reservedField else .command (op.instr c)

/-- The host's reading of one opcode-table row: a command word is one 32-bit value, moved whole (R34, R43), so its
bits are numbered as the table numbers them. -/
def decodeTableWord (nbits w : Nat) : Option Instr :=
  match decode (BitVec.ofNat 32 (w % 2 ^ nbits)) with
  | .command i => some i
  | .illegalOpcode => none
  | .reservedField => none

/-! ## The encoder (R44 to R46, R53) -/

/-- SZ = log2 of the byte count (R45, R53). -/
def Size.code : Size → BitVec 2
  | .one => 0#2
  | .two => 1#2
  | .four => 2#2
  | .eight => 3#2

/-- Format BF: OP in 31:28, BITSM1 in 9:5, POS in 4:0, the rest 0 (R44). -/
def encodeBF (op : Op) (pos bits : Nat) : Word :=
  BitVec.ofNat 32 (op.code.toNat * 2 ^ 28 + (bits - 1) * 2 ^ 5 + pos)

/-- Format ES: OP in 31:28, SZ in 1:0, the rest 0 (R45). -/
def encodeES (op : Op) (size : Size) : Word :=
  BitVec.ofNat 32 (op.code.toNat * 2 ^ 28 + size.code.toNat)

/-- Format FX: OP in 31:28, SAT in 12, R in 11:6, NM1 in 5:0, the rest 0 (R46). -/
def encodeFX (op : Op) (sat : Bool) (n r : Nat) : Word :=
  BitVec.ofNat 32 (op.code.toNat * 2 ^ 28 + sat.toNat * 2 ^ 12 + r * 2 ^ 6 + (n - 1))

/-- The command word of a well-formed command. -/
def encode : Instr → Word
  | .bfx pos bits => encodeBF .bfx pos bits
  | .bfd pos bits => encodeBF .bfd pos bits
  | .tobe size => encodeES .tobe size
  | .frombe size => encodeES .frombe size
  | .toint n r sat => encodeFX .toint sat n r
  | .tofp n r => encodeFX .tofp false n r

end Sys2Proof
end

