-- ==== Sys2Proof/Config.lean ====
section
/-! DEFINITION. The implementation parameters of 00_scope.md R5: fixed when the block is built, changed by no
command, access or reset. Those the spec leaves OPEN are opaque constants: no proof can see a value of them. -/

namespace Sys2Proof

/-- `FX_TIE`: how TOINT rounds a value exactly halfway between two integers (R5, R69). -/
inductive Tie where
  | away
  | even
  deriving DecidableEq, Repr

/-- The parameters of one instance (R5). -/
structure Params where
  /-- `HOST_BE`: the host that loads and stores wire words is big-endian. -/
  hostBe : Bool
  /-- `FX_TIE`. -/
  fxTie : Tie
  /-- `BASE`: the bus address of register offset 0. -/
  base : Nat
  deriving DecidableEq, Repr

/-- `BASE` is "any address aligned to 32 bytes" (R5). -/
abbrev Params.wf (p : Params) : Prop := p.base % 32 = 0

namespace Config

/-- `HOST_BE` is OPEN (R5, D4). Log 1. -/
opaque hostBe : Bool

/-- `BASE` is OPEN (R5, D34); it is 32 times this number, so that it is aligned whatever the number is. Log 1. -/
opaque baseSlot : Nat

/-- The parameters of the instance that `State.reset` stands for: the OPEN ones unknown, `FX_TIE` at the spec's
default AWAY (R5). Logs 1 and 2. -/
def params : Params := { hostBe := hostBe, fxTie := .away, base := 32 * baseSlot }

end Config

end Sys2Proof
end

