-- ==== Sys2Proof/Machine/State.lean ====
section
/-! DEFINITION. The state of one instance: the seven registers (10_state.md R13), the parameters (00_scope.md R5),
and the model's own record of what the host offers and has received (70_reset_and_hazards.md R100). Plain data. -/

namespace Sys2Proof.Machine

/-- The seven registers, and nothing else (R13, R25). -/
structure Regs where
  /-- offset 0x00: the last command word written (R17) -/
  cmd : Word
  /-- offset 0x04: CODE 3:0, SAT 8, INEXACT 9, the rest reads 0 (R18) -/
  status : Word
  /-- offset 0x08: bits 31:0 of operand A (R20) -/
  opaLo : Word
  /-- offset 0x0C: bits 63:32 of operand A (R20) -/
  opaHi : Word
  /-- offset 0x10: operand B (R21) -/
  opb : Word
  /-- offset 0x14: bits 31:0 of the result (R22) -/
  resLo : Word
  /-- offset 0x18: bits 63:32 of the result (R22) -/
  resHi : Word
  deriving DecidableEq, Repr

/-- "It sets every register of 10_state.md rule R13 to its reset value", 0x0000_0000 each (R92). -/
def Regs.reset : Regs :=
  { cmd := 0#32, status := 0#32, opaLo := 0#32, opaHi := 0#32, opb := 0#32, resLo := 0#32, resHi := 0#32 }

/-- One access by the bus master, at a byte offset inside the 32-byte window (R27). The write data of an access of
another width than 4 has no effect (R29), so 32 bits hold all that matters of it (log 7). -/
inductive Access where
  | read (off : Fin 32) (width : Nat)
  | write (off : Fin 32) (width : Nat) (data : Word)
  deriving DecidableEq, Repr

/-- What makes the block step: an access it receives, or its reset input (R12, R92, R100). -/
inductive Input where
  | access (a : Access)
  | reset
  deriving DecidableEq, Repr

/-- The two bus responses (R28, R29). -/
inductive BusCode where
  | ok
  | error
  deriving DecidableEq, Repr

/-- What the host receives for one access: the response, and for a read the data (R28 to R30). -/
structure Response where
  code : BusCode
  data : Option Word
  deriving DecidableEq, Repr

/-- The machine: one instance of the block, with what its host offers it and has received from it. -/
structure State where
  /-- the block's registers (R13) -/
  regs : Regs
  /-- the parameters, which nothing changes (R5, R13, R93; log 1) -/
  params : Params
  /-- the model's own field: the accesses and resets the block has yet to receive, in order (R39, R100; log 3) -/
  pending : List Input
  /-- the model's own field: the responses the host has received, oldest first (R100; log 4) -/
  responses : List Response
  deriving DecidableEq, Repr

/-- Reasons to stop with a fault. There is none: every command completes with a code in STATUS, and every illegal
access is answered with ERROR (R29, R78, R79; log 8). -/
inductive Fault where
  deriving DecidableEq, Repr

/-- Reasons to give no meaning. -/
inductive Refusal where
  /-- Raised by `exec` for an instruction without a meaning; every instruction has one, so nothing raises it. Safe. -/
  | notModelled (mnemonic : String)
  deriving DecidableEq, Repr

/-- The machine right after reset (R92, R93): every register 0, the parameters those of the instance, nothing
offered and nothing received. -/
def State.reset : State :=
  { regs := Regs.reset, params := Config.params, pending := [], responses := [] }

end Sys2Proof.Machine
end

