-- ==== Sys2Proof/Machine/Flags.lean ====
section
/-! DEFINITION. STATUS: the codes (10_state.md R19), the two flags (R18, R23) and the word a completion writes
(60_exceptions.md R79). -/

namespace Sys2Proof.Machine

/-- The legal values of STATUS.CODE (R19). -/
inductive Code where
  /-- 0: no command has completed since reset -/
  | none
  /-- 1: the last command completed and RES holds its result -/
  | ok
  /-- 2: CMD[31:28] named no operation -/
  | illegalOpcode
  /-- 3: a reserved bit of the command's format was 1 -/
  | reservedField
  /-- 4: a bit-field command had Bits > Pos + 1 -/
  | badField
  /-- 5: TOINT with SAT = 0 met a value outside the range of (N,R) -/
  | range
  /-- 6: TOINT met a NaN operand -/
  | nan
  deriving DecidableEq, Repr

/-- The number of a code (R19). -/
def codeValue : Code → Nat
  | .none => 0
  | .ok => 1
  | .illegalOpcode => 2
  | .reservedField => 3
  | .badField => 4
  | .range => 5
  | .nan => 6

/-- The flags of a completion (R23). -/
structure Flags where
  sat : Bool
  inexact : Bool
  deriving DecidableEq, Repr

/-- `{}`: no flag. -/
def noFlags : Flags := { sat := false, inexact := false }

/-- `zext_32( (INEXACT in flags) << 9 | (SAT in flags) << 8 | code )` (R79). -/
def statusWord (code : Code) (flags : Flags) : Word :=
  ((BitVec.ofBool flags.inexact).setWidth 32 <<< 9) ||| ((BitVec.ofBool flags.sat).setWidth 32 <<< 8) |||
    BitVec.ofNat 32 (codeValue code)

/-- STATUS.CODE, bits 3:0 (R18). -/
def codeField (status : Word) : BitVec 4 := status.extractLsb' 0 4

/-- STATUS.SAT, bit 8 (R18). -/
def satFlag (status : Word) : Bool := status.getLsbD 8

/-- STATUS.INEXACT, bit 9 (R18). -/
def inexactFlag (status : Word) : Bool := status.getLsbD 9

/-- The reserved bits of STATUS, 7:4 and 31:10, which read 0 (R18). -/
def statusReserved : Word := 0xFFFFFCF0#32

end Sys2Proof.Machine
end

