-- ==== Sys2Proof/Machine/Ops.lean ====
section
/-! DEFINITION. The named operations over the registers: reading and writing one (20_memory.md R30, R31), the
operands and the result (10_state.md R14), and completing a command (60_exceptions.md R79). There is no exception
entry and no return from one (R83, R84): an error is a completion, `fail`. -/

namespace Sys2Proof.Machine

/-! ## Registers by name -/

/-- The names of the seven registers (R13). -/
inductive Reg where
  | cmd
  | status
  | opaLo
  | opaHi
  | opb
  | resLo
  | resHi
  deriving DecidableEq, Repr

/-- The read/write registers; the others are read-only (R13, R28). -/
def Reg.writable : Reg → Bool
  | .cmd => true
  | .status => false
  | .opaLo => true
  | .opaHi => true
  | .opb => true
  | .resLo => false
  | .resHi => false

/-- `REG.X` (R9). -/
def Regs.get (g : Regs) : Reg → Word
  | .cmd => g.cmd
  | .status => g.status
  | .opaLo => g.opaLo
  | .opaHi => g.opaHi
  | .opb => g.opb
  | .resLo => g.resLo
  | .resHi => g.resHi

/-- `REG.X <- v` (R9). -/
def Regs.set (g : Regs) (x : Reg) (v : Word) : Regs :=
  match x with
  | .cmd => { g with cmd := v }
  | .status => { g with status := v }
  | .opaLo => { g with opaLo := v }
  | .opaHi => { g with opaHi := v }
  | .opb => { g with opb := v }
  | .resLo => { g with resLo := v }
  | .resHi => { g with resHi := v }

/-- The state with its register `x` set. -/
def State.setReg (s : State) (x : Reg) (v : Word) : State := { s with regs := s.regs.set x v }

/-- The host receives one response (R28, R100). -/
def State.respond (s : State) (r : Response) : State := { s with responses := s.responses ++ [r] }

/-! ## Operands and result (R14) -/

/-- `A = REG.OPA_HI : REG.OPA_LO`. -/
def State.operandA (s : State) : DWord := s.regs.opaHi ++ s.regs.opaLo

/-- `B = REG.OPB`. -/
def State.operandB (s : State) : Word := s.regs.opb

/-- `RES = REG.RES_HI : REG.RES_LO`. -/
def State.result (s : State) : DWord := s.regs.resHi ++ s.regs.resLo

/-! ## Completion (R79) -/

/-- The three values a command ends with: the arguments of its one `finish`. -/
structure Completion where
  code : Code
  flags : Flags
  res : DWord
  deriving DecidableEq, Repr

/-- The completion of a command that succeeds with `flags` and the result `res`. -/
def done (flags : Flags) (res : DWord) : Completion := { code := .ok, flags := flags, res := res }

/-- `fail CODE == finish(CODE, {}, 0)`. -/
def failed (code : Code) : Completion := { code := code, flags := noFlags, res := 0#64 }

/-- `finish(code, flags, res)`: STATUS, RES_LO and RES_HI, written together. -/
def finish (c : Completion) (s : State) : State :=
  { s with regs := { s.regs with
      status := statusWord c.code c.flags
      resLo := c.res.extractLsb' 0 32
      resHi := c.res.extractLsb' 32 32 } }

/-- A command ends in exactly one `finish`, and the machine goes on (R52). -/
def complete (c : Completion) (s : State) : Host.Outcome State Fault Refusal := .next (finish c s)

end Sys2Proof.Machine
end

