-- ==== Sys2Proof/Machine/Operands.lean ====
section
/-! DEFINITION. The operand forms and the value functions the commands share: byte reversal (41_endian.md R62,
R63), the host's native loads and stores (20_memory.md R33), stored words (40_bitfield.md R57), binary64 patterns
(42_fixedpoint.md R68), exact scaling, rounding and ranges (R69 to R73). -/

namespace Sys2Proof.Machine

/-! ## Bytes and byte order -/

/-- Byte `i` of a value, byte 0 the least significant (R6). -/
def byteAt (v : DWord) (i : Nat) : Byte := v.extractLsb' (8 * i) 8

/-- `v[8n-1:0]`, in 64 bits. -/
def lowBytes (n : Size) (v : DWord) : DWord :=
  match n with
  | .one => (v.setWidth 8).setWidth 64
  | .two => (v.setWidth 16).setWidth 64
  | .four => (v.setWidth 32).setWidth 64
  | .eight => v

/-- `byteswap_n(v) = v[7:0] : v[15:8] : ... : v[8n-1:8n-8]`, zero-extended to 64 bits (R62). -/
def byteswap (n : Size) (v : DWord) : DWord :=
  match n with
  | .one => (byteAt v 0).setWidth 64
  | .two => (byteAt v 0 ++ byteAt v 1).setWidth 64
  | .four => (byteAt v 0 ++ byteAt v 1 ++ byteAt v 2 ++ byteAt v 3).setWidth 64
  | .eight => byteAt v 0 ++ byteAt v 1 ++ byteAt v 2 ++ byteAt v 3 ++ byteAt v 4 ++ byteAt v 5 ++ byteAt v 6 ++ byteAt v 7

/-- `conv_n(v) = HOST_BE ? v[8n-1:0] : byteswap_n(v)` (R63). -/
def conv (hostBe : Bool) (n : Size) (v : DWord) : DWord :=
  if hostBe then lowBytes n v else byteswap n v

/-- `from_be32` and `to_be32`, which are one function: between a stored word and its numeric value (R57). -/
def storedWord (hostBe : Bool) (a : Word) : Word := (conv hostBe .four (a.setWidth 64)).setWidth 32

/-- The integer whose bytes, most significant first, are `bs`: the numeric value of wire bytes (R11, R32). -/
def bigEndianValue (bs : List Byte) : Nat := bs.foldl (fun acc b => acc * 256 + b.toNat) 0

/-- `host_load_n(b0..b(n-1))`, `b0` at the lowest address: what one native load of the host gives (R33). -/
def hostLoad (hostBe : Bool) (bs : List Byte) : DWord :=
  BitVec.ofNat 64 (bigEndianValue (if hostBe then bs else bs.reverse))

/-- The bytes of the low n bytes of `v`, most significant first. -/
def bigEndianBytes (n : Nat) (v : DWord) : List Byte := (List.range n).reverse.map (byteAt v)

/-- The n bytes, lowest address first, that one native n-byte store of the host writes: those for which `hostLoad`
gives the value back (R33). -/
def hostStore (hostBe : Bool) (n : Nat) (v : DWord) : List Byte :=
  if hostBe then bigEndianBytes n v else (bigEndianBytes n v).reverse

/-! ## Bit fields (R56) -/

/-- `ones(k)`: the 32-bit value 2^k − 1, for k ≤ 32 (R7). -/
def ones (k : Nat) : Word := BitVec.ofNat 32 (2 ^ k - 1)

/-- `M = ones(Bits) << lsb`, the field's mask (R56). -/
def fieldMask (lsb bits : Nat) : Word := ones bits <<< lsb

/-! ## binary64 (R68) -/

/-- The value of a binary64 pattern: NaN, an infinity, or the exact number `sig * 2^exp`. Both zeros have
`sig = 0`. -/
inductive F64 where
  | nan
  | inf (neg : Bool)
  | finite (sig exp : Int)
  deriving DecidableEq, Repr

/-- `(-1)^s * m`. -/
def signed (s : Bool) (m : Nat) : Int := if s then -(m : Int) else (m : Int)

/-- `F64(x)` (R68). -/
def f64Value (x : DWord) : F64 :=
  let s := x.getLsbD 63
  let e := (x.extractLsb' 52 11).toNat
  let f := (x.extractLsb' 0 52).toNat
  if e = 2047 then
    if f ≠ 0 then .nan else .inf s
  else if e = 0 then .finite (signed s f) (-1074)
  else .finite (signed s (2 ^ 52 + f)) ((e : Int) - 1075)

/-- `bits64(y)` for `y = q * 2^-r` with `q` an integer of at most 53 significant bits: sign, exponent
`⌊log2 |y|⌋ + 1023`, and the 52 fraction bits below the leading one; `y = 0` gives +0.0 (R68, R74). -/
def f64Bits (q : Int) (r : Nat) : DWord :=
  if q = 0 then 0#64
  else
    let m := q.natAbs
    let top := Nat.log2 m
    let frac := if top ≤ 52 then m * 2 ^ (52 - top) else m / 2 ^ (top - 52)
    BitVec.ofBool (decide (q < 0)) ++ BitVec.ofNat 11 (top + 1023 - r) ++ BitVec.ofNat 52 frac

/-! ## Exact scaling and rounding (R69, R72, R73) -/

/-- `2^k` as an integer (R7). -/
def pow2 (k : Nat) : Int := ((2 ^ k : Nat) : Int)

/-- The exact rational `num / 2^den`. -/
structure Scaled where
  num : Int
  den : Nat
  deriving DecidableEq, Repr

/-- `sig * 2^exp * 2^r`, exactly: no rounding and no overflow (R72). -/
def scale (sig exp : Int) (r : Nat) : Scaled :=
  { num := sig * pow2 (exp + r).toNat, den := (-(exp + r)).toNat }

/-- `round_tie(t)`: the nearest integer, ties by `FX_TIE` (R69). -/
def roundTie (tie : Tie) (t : Scaled) : Int :=
  let k := t.num / pow2 t.den
  let d := t.num % pow2 t.den
  if 2 * d < pow2 t.den then k
  else if 2 * d > pow2 t.den then k + 1
  else
    match tie with
    | .away => if t.num > 0 then k + 1 else k
    | .even => if k % 2 = 0 then k else k + 1

/-- `I = t`, for an integer `I`. -/
def Scaled.isInt (t : Scaled) (i : Int) : Bool := decide (i * pow2 t.den = t.num)

/-- `rne_f64(r)`: the binary64 integer nearest to `r`, ties to the even last significand bit (R73). -/
def rneF64 (r : Int) : Int :=
  let m := r.natAbs
  let drop := Nat.log2 m - 52
  let q := m / 2 ^ drop
  let rem := m % 2 ^ drop
  let up := decide (2 * rem > 2 ^ drop) || (decide (2 * rem = 2 ^ drop) && decide (q % 2 = 1))
  signed (decide (r < 0)) ((if up then q + 1 else q) * 2 ^ drop)

/-! ## Fixed point (R67, R70, R71) -/

/-- `sext_N(a[N-1:0])`: the N-bit two's-complement raw value; the bits above are ignored (R8, R74). -/
def rawValue (n : Nat) (a : DWord) : Int := (a.setWidth n).toInt

/-- `C(N)`: the smallest of 8, 16, 32, 64 that holds N (R70). -/
def containerWidth (n : Nat) : Nat :=
  if n ≤ 8 then 8 else if n ≤ 16 then 16 else if n ≤ 32 then 32 else 64

/-- `lo(N) = −2^(N−1)` (R71). -/
def lo (n : Nat) : Int := -pow2 (n - 1)

/-- `hi(N) = 2^(N−1) − 1` (R71). -/
def hi (n : Nat) : Int := pow2 (n - 1) - 1

/-- `zext_64(bits_C(N)(I))` (R70, R72). -/
def container (n : Nat) (i : Int) : DWord := (BitVec.ofInt (containerWidth n) i).setWidth 64

end Sys2Proof.Machine
end

