-- ==== Sys2Proof/Machine/BitField.lean ====
section
/-! DEFINITION. The bit-field extractor/depositor: BFX and BFD (40_bitfield.md R56 to R60). -/

namespace Sys2Proof.Machine

/-- `BFX(Pos, Bits, a)` (R58). -/
def bfx (hostBe : Bool) (pos bits : Nat) (a : Word) : Completion :=
  if bits > pos + 1 then failed .badField
  else done noFlags (((storedWord hostBe a).extractLsb' (pos + 1 - bits) bits).setWidth 64)

/-- `V' = (V & ~M) | ((b & ones(Bits)) << lsb)`: clear the field, then OR the value in (R59). -/
def deposit (lsb bits : Nat) (v b : Word) : Word :=
  (v &&& ~~~(fieldMask lsb bits)) ||| ((b &&& ones bits) <<< lsb)

/-- `BFD(Pos, Bits, a, b)` (R59). -/
def bfd (hostBe : Bool) (pos bits : Nat) (a b : Word) : Completion :=
  if bits > pos + 1 then failed .badField
  else
    done noFlags
      ((storedWord hostBe (deposit (pos + 1 - bits) bits (storedWord hostBe a) b)).setWidth 64)

/-- BFX reads A[31:0] (R20, R58). -/
def execBfx (pos bits : Nat) (s : State) : Host.Outcome State Fault Refusal :=
  complete (bfx s.params.hostBe pos bits (s.operandA.setWidth 32)) s

/-- BFD reads A[31:0] and B (R20, R21, R59). -/
def execBfd (pos bits : Nat) (s : State) : Host.Outcome State Fault Refusal :=
  complete (bfd s.params.hostBe pos bits (s.operandA.setWidth 32) s.operandB) s

end Sys2Proof.Machine
end

