-- ==== Sys2Proof/Machine/Endian.lean ====
section
/-! DEFINITION. The endian converter: TOBE and FROMBE (41_endian.md R62 to R65). -/

namespace Sys2Proof.Machine

/-- TOBE reads A[8n-1:0], a host-native integer, and gives `conv_n` of it (R64). -/
def execTobe (size : Size) (s : State) : Host.Outcome State Fault Refusal :=
  complete (done noFlags (conv s.params.hostBe size s.operandA)) s

/-- FROMBE reads A[8n-1:0], a natively loaded wire value, and gives `conv_n` of it (R65). -/
def execFrombe (size : Size) (s : State) : Host.Outcome State Fault Refusal :=
  complete (done noFlags (conv s.params.hostBe size s.operandA)) s

end Sys2Proof.Machine
end

