-- ==== Sys2Proof/Machine/FixedPoint.lean ====
section
/-! DEFINITION. The fixed-point converter: TOINT and TOFP (42_fixedpoint.md R67 to R77). Raw values have no special
meaning here, sentinels included (R76). -/

namespace Sys2Proof.Machine

/-- A rounded TOINT operand: an integer or an infinity (R72). -/
inductive Rounded where
  | negInf
  | int (i : Int)
  | posInf
  deriving DecidableEq, Repr

/-- `I > hi(N)` (R72). -/
def aboveRange (n : Nat) : Rounded → Bool
  | .negInf => false
  | .int i => decide (i > hi n)
  | .posInf => true

/-- `I < lo(N)` (R72). -/
def belowRange (n : Nat) : Rounded → Bool
  | .negInf => true
  | .int i => decide (i < lo n)
  | .posInf => false

/-- The end of TOINT: the range check on the rounded value, after rounding; reject or saturate (R71, R72). -/
def placeRounded (n : Nat) (sat inexact : Bool) (v : Rounded) : Completion :=
  if aboveRange n v then
    if sat then done { sat := true, inexact := inexact } (container n (hi n)) else failed .range
  else if belowRange n v then
    if sat then done { sat := true, inexact := inexact } (container n (lo n)) else failed .range
  else
    match v with
    | .int i => done { sat := false, inexact := inexact } (container n i)
    | .negInf => failed .range
    | .posInf => failed .range

/-- `TOINT(N, R, SAT, a)` (R72). -/
def toint (tie : Tie) (n r : Nat) (sat : Bool) (a : DWord) : Completion :=
  match f64Value a with
  | .nan => failed .nan
  | .inf neg => placeRounded n sat false (if neg then .negInf else .posInf)
  | .finite sig exp =>
    let t := scale sig exp r
    let i := roundTie tie t
    placeRounded n sat (!t.isInt i) (.int i)

/-- `TOFP(N, R, a)` (R74). -/
def tofp (n r : Nat) (a : DWord) : Completion :=
  let raw := rawValue n a
  let q := rneF64 raw
  done { sat := false, inexact := decide (q ≠ raw) } (f64Bits q r)

/-- TOINT reads A[63:0], a binary64 pattern (R20, R72). -/
def execToint (n r : Nat) (sat : Bool) (s : State) : Host.Outcome State Fault Refusal :=
  complete (toint s.params.fxTie n r sat s.operandA) s

/-- TOFP reads A[N-1:0], the raw value (R20, R74). -/
def execTofp (n r : Nat) (s : State) : Host.Outcome State Fault Refusal :=
  complete (tofp n r s.operandA) s

end Sys2Proof.Machine
end

