-- ==== Sys2Proof/Machine/Dispatch.lean ====
section
/-! DEFINITION. The meaning of every command (30_encoding.md R52), one direct call per constructor of Instr. -/

namespace Sys2Proof.Machine

def exec (i : Instr) (s : State) : Host.Outcome State Fault Refusal :=
  match i with
  | .bfx pos bits => Sys2Proof.Machine.execBfx pos bits s
  | .bfd pos bits => Sys2Proof.Machine.execBfd pos bits s
  | .tobe size => Sys2Proof.Machine.execTobe size s
  | .frombe size => Sys2Proof.Machine.execFrombe size s
  | .toint n r sat => Sys2Proof.Machine.execToint n r sat s
  | .tofp n r => Sys2Proof.Machine.execTofp n r s

end Sys2Proof.Machine
end

