-- ==== Sys2Proof/Machine/Window.lean ====
section
/-! DEFINITION. The register window: which address and which offset name what (20_memory.md R27), which accesses
are legal (R28, R29, R35), what one does (R30, R31), and executing a command word (30_encoding.md R52). -/

namespace Sys2Proof.Machine

/-! ## Addresses and offsets (R13, R27) -/

/-- The offset an address has in the window `BASE … BASE+0x1F`; none outside it (R27). -/
def windowOffset (p : Params) (address : Nat) : Option (Fin 32) :=
  if p.base ≤ address then
    if h : address - p.base < 32 then some ⟨address - p.base, h⟩ else none
  else none

/-- The register at an offset (R13). Offset 0x1C is reserved, and the others name none. -/
def regAt (off : Fin 32) : Option Reg :=
  match off.val with
  | 0x00 => some .cmd
  | 0x04 => some .status
  | 0x08 => some .opaLo
  | 0x0C => some .opaHi
  | 0x10 => some .opb
  | 0x14 => some .resLo
  | 0x18 => some .resHi
  | _ => none

/-- The offset of a register (R13). -/
def Reg.offset : Reg → Fin 32
  | .cmd => 0x00
  | .status => 0x04
  | .opaLo => 0x08
  | .opaHi => 0x0C
  | .opb => 0x10
  | .resLo => 0x14
  | .resHi => 0x18

/-! ## Legal accesses (R28, R29) -/

/-- The register a read may read: width 4, an aligned offset, a register there. -/
def readTarget (off : Fin 32) (width : Nat) : Option Reg :=
  if width = 4 ∧ off.val % 4 = 0 then regAt off else none

/-- The register a write may write: as a read, and the register is read/write. -/
def writeTarget (off : Fin 32) (width : Nat) : Option Reg :=
  match readTarget off width with
  | some x => if x.writable then some x else none
  | none => none

/-- The access is legal (R28). -/
def Access.legal : Access → Bool
  | .read off width => (readTarget off width).isSome
  | .write off width _ => (writeTarget off width).isSome

/-! ## Executing a command word (R49, R50, R52) -/

/-- `execute(c)`: the command `c` names, or the completion of R49 or R50. CMD already holds `c` (R31). -/
def execute (c : Word) (s : State) : Host.Outcome State Fault Refusal :=
  match decode c with
  | .command i => exec i s
  | .illegalOpcode => complete (failed .illegalOpcode) s
  | .reservedField => complete (failed .reservedField) s

/-! ## One access (R28 to R31) -/

/-- The OK response to a write. -/
def writeOk : Response := { code := .ok, data := none }

/-- The OK response to a read, with the register's value. -/
def readOk (v : Word) : Response := { code := .ok, data := some v }

/-- The ERROR response to a write. -/
def writeError : Response := { code := .error, data := none }

/-- The ERROR response to a read: it returns data 0x0000_0000 (R29). -/
def readError : Response := { code := .error, data := some 0#32 }

/-- One read: the register's value and no change, or a bus error (R29, R30). -/
def performRead (off : Fin 32) (width : Nat) (s : State) : State :=
  match readTarget off width with
  | some x => s.respond (readOk (s.regs.get x))
  | none => s.respond readError

/-- One write: the register stores the data, and a write to CMD also executes it, all in one step; or a bus error
(R29, R31). The response stands in the record before the command runs, which no command sees (log 4). -/
def performWrite (off : Fin 32) (width : Nat) (v : Word) (s : State) : Host.Outcome State Fault Refusal :=
  match writeTarget off width with
  | some .cmd => execute v ((s.setReg .cmd v).respond writeOk)
  | some x => .next ((s.setReg x v).respond writeOk)
  | none => .next (s.respond writeError)

/-- One access, the block's unit of stepping (R12, R28). -/
def performAccess (a : Access) (s : State) : Host.Outcome State Fault Refusal :=
  match a with
  | .read off width => .next (performRead off width s)
  | .write off width v => performWrite off width v s

/-- The reset step: every register to its reset value; the parameters stay, no command runs, and what the host
offers and has received is the host's (R92, R93, R94). -/
def performReset (s : State) : State := { s with regs := Regs.reset }

/-- The block receives one input. -/
def takeInput (i : Input) (s : State) : Host.Outcome State Fault Refusal :=
  match i with
  | .access a => performAccess a s
  | .reset => .next (performReset s)

/-- The block receives the first pending input; with none pending nothing changes, since the block never steps on
its own and holds its registers between accesses (R12, R91; log 5). -/
def takePending (s : State) : Host.Outcome State Fault Refusal :=
  match s.pending with
  | [] => .next s
  | i :: rest => takeInput i { s with pending := rest }

/-- The write of the command word `w` to CMD that a host issues (R17, R55). -/
def cmdWrite (w : Word) : Input := .access (.write 0 4 w)

/-! ## The bus in front of the window (R27) -/

/-- What a bus master asks of an absolute address: a read, or a write of the data. -/
inductive Transfer where
  | read (width : Nat)
  | write (width : Nat) (data : Word)
  deriving DecidableEq, Repr

/-- The access a transfer is at an offset of the window. -/
def Transfer.at (t : Transfer) (off : Fin 32) : Access :=
  match t with
  | .read width => .read off width
  | .write width v => .write off width v

/-- A transfer at an absolute address reaches the block when the address lies in its window, and is not seen by
it otherwise (R27). The bus delivers it after everything already pending (R39). -/
def State.deliver (s : State) (address : Nat) (t : Transfer) : State :=
  match windowOffset s.params address with
  | some off => { s with pending := s.pending ++ [.access (t.at off)] }
  | none => s

end Sys2Proof.Machine
end

