-- ==== Sys2Proof/Machine/Step.lean ====
section
/-! DEFINITION. One step of the block (10_state.md R12): the complete effect of one input it receives. -/

namespace Sys2Proof.Machine

/-- One step: the first pending access or reset (R12, R28, R92). -/
def step (s : State) : Host.Outcome State Fault Refusal := takePending s

/-- The state whose next step runs the command word whose bits are `w`: the host's write of that word to CMD comes
first among the pending inputs. A command is not fetched; it is written (R15, R17). Log 3. -/
def State.withFetchWord (s : State) (nbits w : Nat) : State :=
  { s with pending := cmdWrite (BitVec.ofNat 32 (w % 2 ^ nbits)) :: s.pending }

end Sys2Proof.Machine
end

