-- ==== Sys2Proof/Machine/HostMemory.lean ====
section
/-! DEFINITION. The host's memory, which is not the block's (10_state.md R16): bytes by address, and the host's
native loads and stores (20_memory.md R33), by which values move between it and the register window. -/

namespace Sys2Proof.Machine

/-- Host memory: addresses strictly rising, no entry equal to what an unlisted address reads as. -/
abbrev Memory := List Host.Cell

/-- What an unlisted address reads as: "bytes not listed are 0x00" (95_test_vectors.md §3; log 9). -/
def unlistedByte : Byte := 0#8

/-- The canonical form. -/
abbrev Memory.wf (m : Memory) : Prop :=
  m.Pairwise (fun c d => c.1 < d.1) ∧ ∀ c ∈ m, c.2 ≠ unlistedByte

/-- The byte at an address. -/
def Memory.read : Memory → Nat → Byte
  | [], _ => unlistedByte
  | (a, b) :: m, x => if x = a then b else Memory.read m x

/-- The memory with one byte written, in canonical form. -/
def Memory.write : Memory → Nat → Byte → Memory
  | [], x, v => if v = unlistedByte then [] else [(x, v)]
  | (a, b) :: m, x, v =>
    if x < a then
      if v = unlistedByte then (a, b) :: m else (x, v) :: (a, b) :: m
    else if x = a then
      if v = unlistedByte then m else (a, v) :: m
    else (a, b) :: Memory.write m x v

/-- The bytes written at consecutive addresses from `p`. -/
def Memory.writeBytes (m : Memory) (p : Nat) : List Byte → Memory
  | [] => m
  | b :: bs => Memory.writeBytes (m.write p b) (p + 1) bs

/-- One native n-byte load of the host at `p` (R33). -/
def Memory.nativeLoad (hostBe : Bool) (n : Nat) (m : Memory) (p : Nat) : DWord :=
  hostLoad hostBe ((List.range n).map fun i => m.read (p + i))

/-- One native n-byte store of the host at `p` (R33). -/
def Memory.nativeStore (hostBe : Bool) (n : Nat) (m : Memory) (p : Nat) (v : DWord) : Memory :=
  m.writeBytes p (hostStore hostBe n v)

end Sys2Proof.Machine
end

