-- ==== Sys2Proof/Machine/HostScript.lean ====
section
/-! DEFINITION. The host-script notation (30_encoding.md R55): the host's own lines, which it runs in order around
the block. "The host, not the block, runs these lines": a script is no part of State, and each line that reaches the
block does so as one access or one reset step of it. Log 9. -/

namespace Sys2Proof.Machine

/-- A host variable. -/
abbrev Var := Nat

/-- What a host variable holds: a 32-bit value, or the bus response an `acc` line bound. -/
inductive HostValue where
  | word (v : Word)
  | response (c : BusCode)
  deriving DecidableEq, Repr

/-- `<expr>`: host computation on variables and constants, modulo 2^32, and the two responses as constants, so that
a `<cond>` can compare a variable an `acc` line bound (R55). -/
inductive Expr where
  | const (v : Word)
  /-- OK or ERROR -/
  | response (c : BusCode)
  | var (x : Var)
  | add (a b : Expr)
  | sub (a b : Expr)
  | or (a b : Expr)
  | and (a b : Expr)
  | shl (a b : Expr)
  /-- `T[i]` of a host constant table -/
  | index (table : List Word) (i : Expr)
  deriving Repr

/-- `<cond>`: a comparison of host variables and constants (R55): equality of two 32-bit values or of two
responses, and the order of two unsigned 32-bit values. Which comparisons there are is the model's choice (log 9). -/
inductive Cond where
  | eq (a b : Expr)
  | ne (a b : Expr)
  | lt (a b : Expr)
  | le (a b : Expr)
  deriving Repr

/-- `<command>` with its fields as expressions (R53, R55). -/
inductive CommandExpr where
  | bfx (pos bits : Expr)
  | bfd (pos bits : Expr)
  | tobe (size : Expr)
  | frombe (size : Expr)
  | toint (n r : Expr) (sat : Bool)
  | tofp (n r : Expr)
  deriving Repr

/-- One line of a script; labels are line numbers (R55). -/
inductive Line where
  /-- `wr REG, v` -/
  | wr (x : Reg) (v : Expr)
  /-- `wr CMD, <command>` -/
  | wrCommand (c : CommandExpr)
  /-- `rd REG -> x` -/
  | rd (x : Reg) (dest : Var)
  /-- `hload_n addr -> x`, n = 1, 2, 4 -/
  | hload (n : Size) (address : Expr) (dest : Var)
  /-- `hload_8 addr -> hi:lo` -/
  | hload8 (address : Expr) (hi lo : Var)
  /-- `hstore_n addr, v`, n = 1, 2, 4 -/
  | hstore (n : Size) (address v : Expr)
  /-- `hstore_8 addr, hi:lo` -/
  | hstore8 (address hi lo : Expr)
  /-- `acc W off, width, v -> r` -/
  | accWrite (off : Fin 32) (width : Nat) (v : Expr) (r : Var)
  /-- `acc R off, width -> r, x` -/
  | accRead (off : Fin 32) (width : Nat) (r x : Var)
  /-- `reset` -/
  | reset
  /-- `x <- <expr>` -/
  | assign (x : Var) (e : Expr)
  /-- `if <cond> goto L` -/
  | ifGoto (c : Cond) (label : Nat)
  /-- `goto L` -/
  | goto (label : Nat)
  /-- `halt` -/
  | halt
  deriving Repr

/-- The host running a script beside one instance of the block. -/
structure System where
  block : State
  /-- the host's variables, the latest binding first -/
  vars : List (Var × HostValue)
  /-- the host's memory (R16) -/
  mem : Memory
  /-- the line the host runs next -/
  line : Nat
  deriving DecidableEq, Repr

/-- What one line leads to. -/
inductive ScriptOutcome where
  | running (y : System)
  /-- a `halt` line, or no line left -/
  | halted
  /-- R55 gives the line no meaning: it reads an unbound variable or an absent table entry, uses a response where a
  32-bit value stands or compares one with the other, names a write that is not legal, an 8-byte single-variable
  transfer, or a command an assembler refuses (log 9). -/
  | stuck
  deriving DecidableEq, Repr

/-- What a variable holds. -/
def lookupVar (vars : List (Var × HostValue)) (x : Var) : Option HostValue := vars.lookup x

/-- The 32-bit value, where it is one. -/
def HostValue.toWord : HostValue → Option Word
  | .word v => some v
  | .response _ => none

/-- Host arithmetic: on two 32-bit values (R55). -/
def onWords (f : Word → Word → Word) (a b : Option HostValue) : Option HostValue :=
  (a.bind (·.toWord)).bind fun u => (b.bind (·.toWord)).map fun v => .word (f u v)

/-- The value of an expression (R55). -/
def evalExpr (vars : List (Var × HostValue)) : Expr → Option HostValue
  | .const v => some (.word v)
  | .response c => some (.response c)
  | .var x => lookupVar vars x
  | .add a b => onWords (fun u v => u + v) (evalExpr vars a) (evalExpr vars b)
  | .sub a b => onWords (fun u v => u - v) (evalExpr vars a) (evalExpr vars b)
  | .or a b => onWords (fun u v => u ||| v) (evalExpr vars a) (evalExpr vars b)
  | .and a b => onWords (fun u v => u &&& v) (evalExpr vars a) (evalExpr vars b)
  | .shl a b => onWords (fun u v => u <<< v.toNat) (evalExpr vars a) (evalExpr vars b)
  | .index table i => ((evalExpr vars i).bind (·.toWord)).bind fun v => (table[v.toNat]?).map .word

/-- The value of an expression that must be a 32-bit value. -/
def evalWord (vars : List (Var × HostValue)) (e : Expr) : Option Word := (evalExpr vars e).bind (·.toWord)

/-- Whether two values of one kind are equal; a response and a 32-bit value are not compared (log 9). -/
def sameValue : HostValue → HostValue → Option Bool
  | .word u, .word v => some (decide (u = v))
  | .response c, .response d => some (decide (c = d))
  | .word _, .response _ => none
  | .response _, .word _ => none

/-- The truth of a condition (R55). -/
def evalCond (vars : List (Var × HostValue)) : Cond → Option Bool
  | .eq a b => (evalExpr vars a).bind fun u => (evalExpr vars b).bind fun v => sameValue u v
  | .ne a b => (evalExpr vars a).bind fun u => (evalExpr vars b).bind fun v => (sameValue u v).map (!·)
  | .lt a b => (evalWord vars a).bind fun u => (evalWord vars b).map fun v => decide (u.toNat < v.toNat)
  | .le a b => (evalWord vars a).bind fun u => (evalWord vars b).map fun v => decide (u.toNat ≤ v.toNat)

/-- SIZE ∈ {1, 2, 4, 8} (R53). -/
def sizeOfBytes (n : Nat) : Option Size :=
  match n with
  | 1 => some .one
  | 2 => some .two
  | 4 => some .four
  | 8 => some .eight
  | _ => none

/-- The command with its fields evaluated, where an assembler accepts it (R53). -/
def evalCommand (vars : List (Var × HostValue)) (c : CommandExpr) : Option Instr :=
  let two (a b : Expr) (f : Nat → Nat → Instr) : Option Instr :=
    (evalWord vars a).bind fun u => (evalWord vars b).map fun v => f u.toNat v.toNat
  let sized (a : Expr) (f : Size → Instr) : Option Instr :=
    ((evalWord vars a).bind fun v => sizeOfBytes v.toNat).map f
  let made : Option Instr :=
    match c with
    | .bfx pos bits => two pos bits .bfx
    | .bfd pos bits => two pos bits .bfd
    | .tobe size => sized size .tobe
    | .frombe size => sized size .frombe
    | .toint n r sat => two n r fun n r => .toint n r sat
    | .tofp n r => two n r .tofp
  made.filter (·.assembles)

/-- The host goes on at the next line. -/
def System.advance (y : System) : System := { y with line := y.line + 1 }

/-- The host binds a variable. -/
def System.bind (y : System) (x : Var) (v : HostValue) : System := { y with vars := (x, v) :: y.vars }

/-- The host offers the block one input, the block takes its step, and the host goes on as `next` says. DESIGN
CHOICE: R39 leaves the order in which several masters' accesses arrive to the bus; here the line's own input is
delivered before everything already pending on the block, which is then other masters', so that the line's step is
the block's next one, while `State.deliver` appends (log 13). -/
def System.offer (y : System) (i : Input) (next : System → ScriptOutcome) : ScriptOutcome :=
  match step { y.block with pending := i :: y.block.pending } with
  | .next s => next { y with block := s }
  | .fault _ => .stuck
  | .refused _ => .stuck

/-- The response to the access just made. -/
def System.lastResponse (y : System) : Option Response := y.block.responses.getLast?

/-- The host binds the read data just received. -/
def System.bindData (y : System) (x : Var) : ScriptOutcome :=
  match y.lastResponse.bind (·.data) with
  | some v => .running (y.bind x (.word v)).advance
  | none => .stuck

/-- The host binds the response just received. -/
def System.bindResponse (y : System) (r : Var) : System :=
  match y.lastResponse with
  | some p => y.bind r (.response p.code)
  | none => y

/-- The host goes on with a value it computed; without one the line has no meaning. -/
def withValue {α : Type} (o : Option α) (f : α → ScriptOutcome) : ScriptOutcome :=
  match o with
  | some v => f v
  | none => .stuck

/-- One line (R55). -/
def runLine (l : Line) (y : System) : ScriptOutcome :=
  match l with
  | .wr x v =>
    withValue (evalWord y.vars v) fun v =>
      if x.writable then y.offer (.access (.write x.offset 4 v)) fun z => .running z.advance else .stuck
  | .wrCommand c =>
    withValue (evalCommand y.vars c) fun i => y.offer (cmdWrite (encode i)) fun z => .running z.advance
  | .rd x dest => y.offer (.access (.read x.offset 4)) fun z => z.bindData dest
  | .hload n address dest =>
    withValue (evalWord y.vars address) fun p =>
      if n = .eight then .stuck
      else
        .running (y.bind dest (.word ((y.mem.nativeLoad y.block.params.hostBe n.bytes p.toNat).setWidth 32))).advance
  | .hload8 address hi lo =>
    withValue (evalWord y.vars address) fun p =>
      let v := y.mem.nativeLoad y.block.params.hostBe 8 p.toNat
      .running ((y.bind hi (.word (v.extractLsb' 32 32))).bind lo (.word (v.extractLsb' 0 32))).advance
  | .hstore n address v =>
    withValue (evalWord y.vars address) fun p => withValue (evalWord y.vars v) fun v =>
      if n = .eight then .stuck
      else
        .running { y with
          mem := y.mem.nativeStore y.block.params.hostBe n.bytes p.toNat (v.setWidth 64), line := y.line + 1 }
  | .hstore8 address hi lo =>
    withValue (evalWord y.vars address) fun p => withValue (evalWord y.vars hi) fun u =>
      withValue (evalWord y.vars lo) fun v =>
        .running { y with mem := y.mem.nativeStore y.block.params.hostBe 8 p.toNat (u ++ v), line := y.line + 1 }
  | .accWrite off width v r =>
    withValue (evalWord y.vars v) fun v =>
      y.offer (.access (.write off width v)) fun z => .running (z.bindResponse r).advance
  | .accRead off width r x => y.offer (.access (.read off width)) fun z => (z.bindResponse r).bindData x
  | .reset => y.offer .reset fun z => .running z.advance
  | .assign x e => withValue (evalExpr y.vars e) fun v => .running (y.bind x v).advance
  | .ifGoto c label =>
    withValue (evalCond y.vars c) fun b => if b then .running { y with line := label } else .running y.advance
  | .goto label => .running { y with line := label }
  | .halt => .halted

/-- The host runs the line it has come to. -/
def System.step (script : List Line) (y : System) : ScriptOutcome :=
  match script[y.line]? with
  | some l => runLine l y
  | none => .halted

end Sys2Proof.Machine
end

