-- ==== Sys2Proof/Machine/Platform.lean ====
section
/-! DEFINITION. Several instances on one platform (60_exceptions.md R89), each a State of its own. -/

namespace Sys2Proof.Machine

/-- Any number of instances, each with its own BASE and its own seven registers (R89). -/
abbrev Platform := List State

/-- The bus offers a transfer at an absolute address to every instance; only the one whose window holds the
address sees it (R27, R89). -/
def Platform.deliver (p : Platform) (address : Nat) (t : Transfer) : Platform :=
  p.map fun s => s.deliver address t

/-- Instance `k` takes one step; with no such instance nothing happens. -/
def Platform.stepAt (p : Platform) (k : Nat) : Host.Outcome Platform Fault Refusal :=
  match p[k]? with
  | none => .next p
  | some s =>
    match step s with
    | .next t => .next (p.set k t)
    | .fault r => .fault r
    | .refused r => .refused r

/-- The windows of a platform's instances: aligned, and at addresses of their own ("instances are told apart by
`BASE` alone", R89). -/
abbrev Platform.wf (p : Platform) : Prop :=
  (∀ s ∈ p, s.params.wf) ∧ (p.map fun s => s.params.base).Nodup

end Sys2Proof.Machine
end

