-- ==== Sys2Proof/Safety.lean ====
section
/-! DEFINITION. The terms claims are stated in, written from the rules and not from the operations they are about:
the state a completion or a CMD write leaves, legal states, and the exact rational meaning of binary64 patterns and
of roundings. Nothing here is part of the machine. -/

namespace Sys2Proof.Machine

/-! ## What a completion and a CMD write leave -/

/-- `s` after `finish(code, flags, res)`: STATUS = INEXACT·2^9 + SAT·2^8 + code, RES = `res`, nothing else (R79). -/
def completedWith (s : State) (code : Nat) (sat inexact : Bool) (res : DWord) : State :=
  { s with regs := { s.regs with
      status := BitVec.ofNat 32 (512 * inexact.toNat + 256 * sat.toNat + code)
      resLo := BitVec.ofNat 32 res.toNat
      resHi := BitVec.ofNat 32 (res.toNat / 2 ^ 32) } }

/-- `s` after `fail CODE`: no flags and a zero result (R79). -/
def failedWith (s : State) (code : Nat) : State := completedWith s code false false 0#64

/-- `s` once its first pending input, the write of `c` to CMD, has stored `c` and been answered OK; `rest` is still
pending (R17, R31). -/
def cmdWritten (s : State) (c : Word) (rest : List Input) : State :=
  { s with
    regs := { s.regs with cmd := c }
    pending := rest
    responses := s.responses ++ [{ code := .ok, data := none }] }

/-- `s` with its first pending input taken off and answered with `r`: nothing else changed. -/
def answered (s : State) (rest : List Input) (r : Response) : State :=
  { s with pending := rest, responses := s.responses ++ [r] }

/-! ## Legal states -/

/-- STATUS holds a code of R19, its reserved bits read 0, and flags and a result come only with OK
(R18, R19, R22, R79). -/
def StatusLegal (s : State) : Prop :=
  (codeField s.regs.status).toNat ≤ 6 ∧
  s.regs.status &&& statusReserved = 0#32 ∧
  (codeField s.regs.status ≠ 1#4 →
    satFlag s.regs.status = false ∧ inexactFlag s.regs.status = false ∧ s.result = 0#64)

/-- STATUS and RES are those of the last command: either no command has completed since reset, or executing the
word in CMD on some operands, under the same parameters, leaves exactly them (R13, R17, R25, R92). -/
def ShowsLastCommand (s : State) : Prop :=
  (s.regs.cmd = 0#32 ∧ s.regs.status = 0#32 ∧ s.result = 0#64) ∨
  ∃ before after : State,
    before.params = s.params ∧ execute s.regs.cmd before = .next after ∧
    s.regs.status = after.regs.status ∧ s.result = after.result

/-- Each error code and each flag stands only beside a command in CMD that can raise it (R23, R78). -/
def CodeFitsCommand (s : State) : Prop :=
  (codeField s.regs.status = 2#4 → decode s.regs.cmd = .illegalOpcode) ∧
  (codeField s.regs.status = 3#4 → decode s.regs.cmd = .reservedField) ∧
  (codeField s.regs.status = 4#4 → ∃ pos bits, pos + 1 < bits ∧
    (decode s.regs.cmd = .command (.bfx pos bits) ∨ decode s.regs.cmd = .command (.bfd pos bits))) ∧
  (codeField s.regs.status = 5#4 → ∃ n r, decode s.regs.cmd = .command (.toint n r false)) ∧
  (codeField s.regs.status = 6#4 → ∃ n r sat, decode s.regs.cmd = .command (.toint n r sat)) ∧
  (satFlag s.regs.status = true → ∃ n r, decode s.regs.cmd = .command (.toint n r true)) ∧
  (inexactFlag s.regs.status = true → ∃ n r,
    decode s.regs.cmd = .command (.tofp n r) ∨ ∃ sat, decode s.regs.cmd = .command (.toint n r sat))

/-- The two states agree on every parameter and every bit of A and B that the command reads (R20, R21). -/
def SameReads (i : Instr) (s t : State) : Prop :=
  match i with
  | .bfx _ _ => s.params.hostBe = t.params.hostBe ∧ s.regs.opaLo = t.regs.opaLo
  | .bfd _ bits => s.params.hostBe = t.params.hostBe ∧ s.regs.opaLo = t.regs.opaLo ∧
      s.regs.opb.toNat % 2 ^ bits = t.regs.opb.toNat % 2 ^ bits
  | .tobe n => s.params.hostBe = t.params.hostBe ∧
      s.operandA.toNat % 2 ^ (8 * n.bytes) = t.operandA.toNat % 2 ^ (8 * n.bytes)
  | .frombe n => s.params.hostBe = t.params.hostBe ∧
      s.operandA.toNat % 2 ^ (8 * n.bytes) = t.operandA.toNat % 2 ^ (8 * n.bytes)
  | .toint _ _ _ => s.params.fxTie = t.params.fxTie ∧ s.operandA = t.operandA
  | .tofp n _ => s.operandA.toNat % 2 ^ n = t.operandA.toNat % 2 ^ n

/-! ## Wire values (R11, R32) -/

/-- The numeric value of the four wire bytes whose native load gave the stored word `a` (R57). -/
def wireValue (hostBe : Bool) (a : DWord) : Nat := bigEndianValue (hostStore hostBe 4 a)

/-! ## Exact values (R67 to R73) -/

/-- `sig * 2^exp`, the value of a finite binary64 pattern (R68). -/
def dyadic (sig exp : Int) : ℚ := (sig : ℚ) * (2 : ℚ) ^ exp

/-- The value of an exact rational of the machine. -/
def Scaled.toRat (t : Scaled) : ℚ := (t.num : ℚ) / (2 : ℚ) ^ t.den

/-- `i` is `round_tie(t)`: the nearest integer, and at a halfway `t` the one away from zero or the even one (R69). -/
def RoundsTo (tie : Tie) (t : ℚ) (i : Int) : Prop :=
  |(i : ℚ) - t| < 1 / 2 ∨
  (|(i : ℚ) - t| = 1 / 2 ∧
    match tie with
    | .away => |t| < |(i : ℚ)|
    | .even => i % 2 = 0)

/-- `i` lies in `lo(N) … hi(N)`, the range of an N-bit two's-complement integer (R71). -/
def InRange (n : Nat) (i : Int) : Prop := -(2 : Int) ^ (n - 1) ≤ i ∧ i ≤ (2 : Int) ^ (n - 1) - 1

/-- The TOINT operand is an infinity, or its rounded value is out of range (R71, R72). -/
def OutOfRange (tie : Tie) (n r : Nat) (a : DWord) : Prop :=
  (∃ neg, f64Value a = .inf neg) ∨
  ∃ sig exp i, f64Value a = .finite sig exp ∧ RoundsTo tie (dyadic sig exp * 2 ^ r) i ∧ ¬ InRange n i

/-- An integer with at most 53 significant bits, hence a binary64 value when it is no larger than 2^63 (R73). -/
def FitsSignificand (q : Int) : Prop := ∃ (m : Int) (k : Nat), |m| < 2 ^ 53 ∧ q = m * 2 ^ k

/-- `q` is the binary64 value nearest to the integer `r`, ties to the even last significand bit: with `2^k` the
unit in the last place at `r`, `q` is a multiple `m` of it at most half a unit away, and `m` is even at exactly half
(R73). -/
def RoundsToEven (r q : Int) : Prop :=
  ∃ (k : Nat) (m : Int), (k = 0 ∨ (2 : Int) ^ (52 + k) ≤ |r|) ∧ |r| < (2 : Int) ^ (53 + k) ∧ q = m * 2 ^ k ∧
    (2 * |q - r| < 2 ^ k ∨ (2 * |q - r| = 2 ^ k ∧ m % 2 = 0))

/-- `raw` is the N-bit two's-complement integer in the low N bits of `a` (R8, R67). -/
def IsRaw (n : Nat) (a : DWord) (raw : Int) : Prop := InRange n raw ∧ raw % 2 ^ n = (a.toNat : Int) % 2 ^ n

end Sys2Proof.Machine
end

