-- ==== Sys2Proof/Certificates/Slice0/Obligations.lean ====
section
/-! DEFINITION. The statements for the provers, each with the rule of spec/ it rests on. The block has no memory of
its own and no program counter (10_state.md R15, R16), so a frame is about the seven registers, the parameters and
what the host offers and has received. -/

open Sys2Proof Sys2Proof.Machine

/-! ## Encoding (30_encoding.md) -/

/-- The worked encodings of R53, R65 and R77 decode to the commands they stand for. -/
def Obligations.WorkedEncodingsDecode : Prop :=
  decode 0x1000007F#32 = .command (.bfx 31 4) ∧
  decode 0x2000001D#32 = .command (.bfd 29 1) ∧
  decode 0x30000002#32 = .command (.tobe .four) ∧
  decode 0x40000002#32 = .command (.frombe .four) ∧
  decode 0x5000053F#32 = .command (.toint 64 20 false) ∧
  decode 0x500011CF#32 = .command (.toint 16 7 true) ∧
  decode 0x600001CF#32 = .command (.tofp 16 7)

/-- Decoding the word of a well-formed command gives the command back, with every operand. -/
def Obligations.DecodeEncodeRoundTrip : Prop :=
  ∀ i : Instr, i.wf = true → decode (encode i) = .command i

/-- A word that decodes to a command is that command's one word, and the command is well formed. -/
def Obligations.EncodeDecodeRoundTrip : Prop :=
  ∀ (c : Word) (i : Instr), decode c = .command i → encode i = c ∧ i.wf = true

/-- The opcode map of R48, row by row: a word is a row's command exactly when `(w & mask) == match`, and names no
operation exactly when OP is 0x0 or 0x7 … 0xF (R49). -/
def Obligations.DecodeFollowsOpcodeMap : Prop :=
  ∀ c : Word,
    (c &&& 0xFFFFFC00#32 = 0x10000000#32 ↔ ∃ pos bits, decode c = .command (.bfx pos bits)) ∧
    (c &&& 0xFFFFFC00#32 = 0x20000000#32 ↔ ∃ pos bits, decode c = .command (.bfd pos bits)) ∧
    (c &&& 0xFFFFFFFC#32 = 0x30000000#32 ↔ ∃ n, decode c = .command (.tobe n)) ∧
    (c &&& 0xFFFFFFFC#32 = 0x40000000#32 ↔ ∃ n, decode c = .command (.frombe n)) ∧
    (c &&& 0xFFFFE000#32 = 0x50000000#32 ↔ ∃ n r sat, decode c = .command (.toint n r sat)) ∧
    (c &&& 0xFFFFF000#32 = 0x60000000#32 ↔ ∃ n r, decode c = .command (.tofp n r)) ∧
    (c.toNat / 2 ^ 28 = 0 ∨ 7 ≤ c.toNat / 2 ^ 28 ↔ decode c = .illegalOpcode)

/-- The field decoding of R47: unsigned slices of the command word, with the +1 and the power of two. -/
def Obligations.FieldsAreUnsignedSlices : Prop :=
  ∀ c : Word,
    Field.pos c = c.toNat % 32 ∧
    Field.bits c = c.toNat / 32 % 32 + 1 ∧
    (Field.size c).bytes = 2 ^ (c.toNat % 4) ∧
    Field.n c = c.toNat % 64 + 1 ∧
    Field.r c = c.toNat / 64 % 64 ∧
    (Field.sat c = true ↔ c.toNat / 4096 % 2 = 1)

/-! ## A CMD write (30_encoding.md R49 to R52, 20_memory.md R31) -/

/-- When the next access writes a word that decodes to a command, the step is that command's meaning in the state
that has stored the word in CMD, taken the access off and answered it OK. -/
def Obligations.StepRunsDecodedCommand : Prop :=
  ∀ (s : State) (c : Word) (rest : List Input) (i : Instr),
    s.pending = cmdWrite c :: rest → decode c = .command i → step s = exec i (cmdWritten s c rest)

/-- `withFetchWord` puts the write of that word first, so that the very next step runs it. -/
def Obligations.FetchWordRunsNext : Prop :=
  ∀ (s : State) (w : Nat) (i : Instr), w < 2 ^ 32 → decode (BitVec.ofNat 32 w) = .command i →
    step (s.withFetchWord 32 w) = exec i (cmdWritten s (BitVec.ofNat 32 w) s.pending)

/-- R49: OP 0x0 or 0x7 … 0xF completes with `fail ILLEGAL_OPCODE`, whatever the other bits are. -/
def Obligations.IllegalOpcodeCompletes : Prop :=
  ∀ (s : State) (c : Word) (rest : List Input), s.pending = cmdWrite c :: rest →
    (c.toNat / 2 ^ 28 = 0 ∨ 7 ≤ c.toNat / 2 ^ 28) →
    step s = .next (failedWith (cmdWritten s c rest) 2)

/-- R50: a legal OP and any reserved bit of its format set completes with `fail RESERVED_FIELD`. -/
def Obligations.ReservedFieldCompletes : Prop :=
  ∀ (s : State) (c : Word) (rest : List Input), s.pending = cmdWrite c :: rest →
    ((c.toNat / 2 ^ 28 = 1 ∧ c &&& 0x0FFFFC00#32 ≠ 0#32) ∨ (c.toNat / 2 ^ 28 = 2 ∧ c &&& 0x0FFFFC00#32 ≠ 0#32) ∨
      (c.toNat / 2 ^ 28 = 3 ∧ c &&& 0x0FFFFFFC#32 ≠ 0#32) ∨ (c.toNat / 2 ^ 28 = 4 ∧ c &&& 0x0FFFFFFC#32 ≠ 0#32) ∨
      (c.toNat / 2 ^ 28 = 5 ∧ c &&& 0x0FFFE000#32 ≠ 0#32) ∨ (c.toNat / 2 ^ 28 = 6 ∧ c &&& 0x0FFFF000#32 ≠ 0#32)) →
    step s = .next (failedWith (cmdWritten s c rest) 3)

/-- R52 and R79: every command word, and every command, ends in exactly one completion of the state it runs in, with
a code from 1 to 6; flags and a non-zero result come only with OK. -/
def Obligations.EveryCommandCompletesOnce : Prop :=
  (∀ (i : Instr) (s : State), ∃ code sat inexact res, 1 ≤ code ∧ code ≤ 6 ∧
    (code ≠ 1 → sat = false ∧ inexact = false ∧ res = 0#64) ∧
    exec i s = .next (completedWith s code sat inexact res)) ∧
  (∀ (c : Word) (s : State), ∃ code sat inexact res, 1 ≤ code ∧ code ≤ 6 ∧
    (code ≠ 1 → sat = false ∧ inexact = false ∧ res = 0#64) ∧
    execute c s = .next (completedWith s code sat inexact res))

/-- The frame of all six commands: CMD, OPA_LO, OPA_HI and OPB, the parameters, and what the host offers and has
received are as before; the reserved bits of STATUS read 0 (R14, R18, R83). -/
def Obligations.CommandFrame : Prop :=
  ∀ (i : Instr) (s t : State), exec i s = .next t →
    t.regs.cmd = s.regs.cmd ∧ t.regs.opaLo = s.regs.opaLo ∧ t.regs.opaHi = s.regs.opaHi ∧ t.regs.opb = s.regs.opb ∧
    t.params = s.params ∧ t.pending = s.pending ∧ t.responses = s.responses ∧
    t.regs.status &&& 0xFFFFFCF0#32 = 0#32

/-- The first error in the order of R80 is the one reported: ILLEGAL_OPCODE, RESERVED_FIELD, BAD_FIELD, NAN, RANGE. -/
def Obligations.FirstErrorIsReported : Prop :=
  ∀ (s t : State) (c : Word) (rest : List Input), s.pending = cmdWrite c :: rest → step s = .next t →
    match decode c with
    | .illegalOpcode => codeField t.regs.status = 2#4
    | .reservedField => codeField t.regs.status = 3#4
    | .command (.bfx pos bits) => codeField t.regs.status = if bits > pos + 1 then 4#4 else 1#4
    | .command (.bfd pos bits) => codeField t.regs.status = if bits > pos + 1 then 4#4 else 1#4
    | .command (.tobe _) => codeField t.regs.status = 1#4
    | .command (.frombe _) => codeField t.regs.status = 1#4
    | .command (.toint n r sat) =>
      (f64Value s.operandA = .nan → codeField t.regs.status = 6#4) ∧
      (f64Value s.operandA ≠ .nan → sat = false → OutOfRange s.params.fxTie n r s.operandA →
        codeField t.regs.status = 5#4) ∧
      (f64Value s.operandA ≠ .nan → (sat = true ∨ ¬ OutOfRange s.params.fxTie n r s.operandA) →
        codeField t.regs.status = 1#4)
    | .command (.tofp _ _) => codeField t.regs.status = 1#4

/-- R36: writing the same word to CMD again, with A and B unchanged, leaves the same seven registers. -/
def Obligations.RepeatedCmdWriteIsIdempotent : Prop :=
  ∀ (s t : State) (c : Word) (rest : List Input), s.pending = cmdWrite c :: cmdWrite c :: rest →
    step s = .next t → ∃ u, step t = .next u ∧ u.regs = t.regs

/-- R25: STATUS and RES after a command word are a function of the word, A, B and the parameters alone; `BASE` and
every earlier result are among what they do not depend on. -/
def Obligations.ResultDependsOnInputsOnly : Prop :=
  ∀ (c : Word) (s₁ s₂ t₁ t₂ : State),
    s₁.params.hostBe = s₂.params.hostBe → s₁.params.fxTie = s₂.params.fxTie →
    s₁.operandA = s₂.operandA → s₁.operandB = s₂.operandB →
    execute c s₁ = .next t₁ → execute c s₂ = .next t₂ →
    t₁.regs.status = t₂.regs.status ∧ t₁.result = t₂.result

/-- R20, R21: bits of A and B that a command does not read, and parameters it does not use, do not affect it: two
states that agree on what it reads complete alike. -/
def Obligations.UnreadBitsDoNotMatter : Prop :=
  ∀ (i : Instr) (s₁ s₂ : State), SameReads i s₁ s₂ →
    ∃ code sat inexact res,
      exec i s₁ = .next (completedWith s₁ code sat inexact res) ∧
      exec i s₂ = .next (completedWith s₂ code sat inexact res)

/-! ## The register window (20_memory.md) -/

/-- R28, R35: the legal accesses are the aligned 4-byte reads of the seven registers and writes of CMD, OPA_LO,
OPA_HI and OPB. -/
def Obligations.LegalAccesses : Prop :=
  ∀ (off : Fin 32) (width : Nat) (v : Word),
    ((Access.read off width).legal = true ↔
      width = 4 ∧ off.val ∈ [0x00, 0x04, 0x08, 0x0C, 0x10, 0x14, 0x18]) ∧
    ((Access.write off width v).legal = true ↔ width = 4 ∧ off.val ∈ [0x00, 0x08, 0x0C, 0x10])

/-- R30: a legal read returns the register's current value and changes no register. -/
def Obligations.LegalReadReturnsRegister : Prop :=
  ∀ (s : State) (off : Fin 32) (v : Word) (rest : List Input), s.pending = .access (.read off 4) :: rest →
    ((off.val = 0x00 ∧ v = s.regs.cmd) ∨ (off.val = 0x04 ∧ v = s.regs.status) ∨
      (off.val = 0x08 ∧ v = s.regs.opaLo) ∨ (off.val = 0x0C ∧ v = s.regs.opaHi) ∨
      (off.val = 0x10 ∧ v = s.regs.opb) ∨ (off.val = 0x14 ∧ v = s.regs.resLo) ∨
      (off.val = 0x18 ∧ v = s.regs.resHi)) →
    step s = .next (answered s rest { code := .ok, data := some v })

/-- R29: an access of another width, misaligned, at 0x1C, or a write to STATUS, RES_LO or RES_HI, is answered with
ERROR and has no other effect; a read answered so returns 0. -/
def Obligations.IllegalAccessIsBusError : Prop :=
  ∀ (s : State) (off : Fin 32) (width : Nat) (v : Word) (rest : List Input),
    (s.pending = .access (.read off width) :: rest → (width ≠ 4 ∨ off.val % 4 ≠ 0 ∨ off.val = 0x1C) →
      step s = .next (answered s rest { code := .error, data := some 0#32 })) ∧
    (s.pending = .access (.write off width v) :: rest →
      (width ≠ 4 ∨ off.val % 4 ≠ 0 ∨ off.val = 0x1C ∨ off.val = 0x04 ∨ off.val = 0x14 ∨ off.val = 0x18) →
      step s = .next (answered s rest { code := .error, data := none }))

/-- R31: a legal write stores the data; to OPA_LO, OPA_HI or OPB it has no other effect; to CMD it also executes the
command, to its end, in the same step. -/
def Obligations.LegalWriteStores : Prop :=
  ∀ (s : State) (v : Word) (rest : List Input),
    (s.pending = .access (.write 0x08 4 v) :: rest →
      step s = .next (answered { s with regs := { s.regs with opaLo := v } } rest { code := .ok, data := none })) ∧
    (s.pending = .access (.write 0x0C 4 v) :: rest →
      step s = .next (answered { s with regs := { s.regs with opaHi := v } } rest { code := .ok, data := none })) ∧
    (s.pending = .access (.write 0x10 4 v) :: rest →
      step s = .next (answered { s with regs := { s.regs with opb := v } } rest { code := .ok, data := none })) ∧
    (s.pending = .access (.write 0x00 4 v) :: rest →
      ∃ t, step s = .next t ∧ execute v (cmdWritten s v rest) = .next t ∧ t.regs.cmd = v ∧ t.pending = rest ∧
        codeField t.regs.status ≠ 0#4)

/-- R28, R81: every access gets exactly one response, OK exactly when it is legal; one answered with ERROR leaves
every register as it was; and a CMD write of legal width is always legal, so that a bus error and a command error
never meet. -/
def Obligations.EveryAccessGetsOneResponse : Prop :=
  (∀ (s : State) (a : Access) (rest : List Input), s.pending = .access a :: rest →
    ∃ t r, step s = .next t ∧ t.pending = rest ∧ t.responses = s.responses ++ [r] ∧
      (r.code = .ok ↔ a.legal = true) ∧ (r.code = .error → t.regs = s.regs)) ∧
  ∀ v : Word, (Access.write 0 4 v).legal = true

/-- R27: a transfer at an address of the window arrives as the access at its offset, after all that is pending; at
any other address the block does not see it. -/
def Obligations.WindowDecoding : Prop :=
  ∀ (s : State) (address : Nat) (t : Transfer),
    (∀ off : Fin 32, address = s.params.base + off.val →
      s.deliver address t = { s with pending := s.pending ++ [.access (t.at off)] }) ∧
    ((address < s.params.base ∨ s.params.base + 32 ≤ address) → s.deliver address t = s)

/-- R89: instances share no state. A step of one leaves every other as it was; and where their windows are aligned
and apart, a transfer changes at most one of them. -/
def Obligations.InstancesAreIndependent : Prop :=
  (∀ (p q : Platform) (k : Nat), p.stepAt k = .next q →
    q.length = p.length ∧ ∀ j, j ≠ k → q[j]? = p[j]?) ∧
  ∀ (p : Platform) (address : Nat) (t : Transfer) (j k : Nat) (a b : State), p.wf → j ≠ k →
    p[j]? = some a → p[k]? = some b →
    (p.deliver address t)[j]? ≠ some a → (p.deliver address t)[k]? = some b

/-! ## Reset and what a step may change (70_reset_and_hazards.md, 10_state.md) -/

/-- The reset step sets all seven registers to 0x0000_0000 (R92), and changes no parameter and runs no command
(R93). That it leaves the record of responses and the other pending inputs as they are is the model's choice (logs 3
and 4). -/
def Obligations.ResetStepClearsRegisters : Prop :=
  ∀ (s : State) (rest : List Input), s.pending = .reset :: rest →
    ∃ t, step s = .next t ∧
      t.regs.cmd = 0#32 ∧ t.regs.status = 0#32 ∧ t.regs.opaLo = 0#32 ∧ t.regs.opaHi = 0#32 ∧ t.regs.opb = 0#32 ∧
      t.regs.resLo = 0#32 ∧ t.regs.resHi = 0#32 ∧ t.params = s.params ∧ t.responses = s.responses ∧ t.pending = rest

/-- R95: CODE is NONE, and RES reads 0, exactly until the first command completes. After reset, the state and the
step, both hold; a CMD write never leaves NONE; from CODE = NONE and RES = 0 every step whose first pending input is
not a 4-byte write to CMD gives CODE = NONE and RES = 0 again; and from any other CODE only a reset gives NONE. -/
def Obligations.NoneMeansNoCommandSinceReset : Prop :=
  (codeField State.reset.regs.status = 0#4 ∧ State.reset.result = 0#64) ∧
  (∀ s t : State, s.pending.head? = some .reset → step s = .next t →
    codeField t.regs.status = 0#4 ∧ t.result = 0#64) ∧
  (∀ (s t : State) (c : Word) (rest : List Input), s.pending = cmdWrite c :: rest → step s = .next t →
    codeField t.regs.status ≠ 0#4) ∧
  (∀ s t : State, codeField s.regs.status = 0#4 → s.result = 0#64 →
    (∀ v : Word, s.pending.head? ≠ some (.access (.write 0x00 4 v))) → step s = .next t →
    codeField t.regs.status = 0#4 ∧ t.result = 0#64) ∧
  ∀ s t : State, codeField s.regs.status ≠ 0#4 → step s = .next t → codeField t.regs.status = 0#4 →
    s.pending.head? = some .reset

/-- With nothing pending a step changes nothing (R12, R91; the model's choice, log 5). -/
def Obligations.NothingPendingChangesNothing : Prop :=
  ∀ s : State, s.pending = [] → step s = .next s

/-- No step stops the machine: every one answers a next state. This is the model's choice, DEDUCED from R29, R52 and
R83: nothing stops the machine (log 8), and a step with nothing pending repeats the state (log 5). -/
def Obligations.EveryStepAnswersNext : Prop :=
  ∀ s : State, ∃ t, step s = .next t

/-- R13, R93: no command, access or reset changes a parameter. -/
def Obligations.ParametersNeverChange : Prop :=
  ∀ s t : State, step s = .next t → t.params = s.params

/-- R14, R18, R22: STATUS, RES_LO and RES_HI change only at a legal write to CMD or a reset; R17, R20, R21: CMD and
the operand registers change only at a legal write to their own offset or a reset. -/
def Obligations.OnlyTheseInputsChangeRegisters : Prop :=
  ∀ s t : State, step s = .next t →
    ((t.regs.status ≠ s.regs.status ∨ t.regs.resLo ≠ s.regs.resLo ∨ t.regs.resHi ≠ s.regs.resHi ∨
        t.regs.cmd ≠ s.regs.cmd) →
      s.pending.head? = some .reset ∨ ∃ v, s.pending.head? = some (.access (.write 0x00 4 v))) ∧
    (t.regs.opaLo ≠ s.regs.opaLo →
      s.pending.head? = some .reset ∨ ∃ v, s.pending.head? = some (.access (.write 0x08 4 v)) ∧ t.regs.opaLo = v) ∧
    (t.regs.opaHi ≠ s.regs.opaHi →
      s.pending.head? = some .reset ∨ ∃ v, s.pending.head? = some (.access (.write 0x0C 4 v)) ∧ t.regs.opaHi = v) ∧
    (t.regs.opb ≠ s.regs.opb →
      s.pending.head? = some .reset ∨ ∃ v, s.pending.head? = some (.access (.write 0x10 4 v)) ∧ t.regs.opb = v)

/-! ## STATUS (10_state.md R18, R19, R23, 60_exceptions.md R78, R79) -/

/-- Every step keeps STATUS legal: a code of R19, reserved bits 0, flags and a non-zero result only with OK. -/
def Obligations.StatusStaysLegal : Prop :=
  ∀ s t : State, StatusLegal s → step s = .next t → StatusLegal t

/-- STATUS is legal at reset. -/
def Obligations.StatusLegalAtReset : Prop :=
  StatusLegal State.reset

/-- Every step keeps STATUS and RES the last command's: what executing CMD on some operands under these parameters
leaves, or zero when no command has completed since reset (R13, R17, R25). -/
def Obligations.StatusAndResultAreLastCommands : Prop :=
  ∀ s t : State, ShowsLastCommand s → step s = .next t → ShowsLastCommand t

/-- They are so at reset. -/
def Obligations.ResetShowsNoCommand : Prop :=
  ShowsLastCommand State.reset

/-- Every step keeps each error code and flag beside a command that can raise it (R23, R78), and it holds at reset. -/
def Obligations.CodesStandBesideTheirCommands : Prop :=
  CodeFitsCommand State.reset ∧ ∀ s t : State, CodeFitsCommand s → step s = .next t → CodeFitsCommand t

/-! ## Bit fields (40_bitfield.md) -/

/-- BFX (R58): for a legal field the result is bits Pos … Pos−Bits+1 of the big-endian numeric value of the wire
bytes the host loaded, zero-extended, with OK and no flag. -/
def Obligations.BfxExtractsField : Prop :=
  ∀ (s : State) (pos bits : Nat), pos ≤ 31 → 1 ≤ bits → bits ≤ pos + 1 →
    ∃ res : DWord,
      res.toNat = wireValue s.params.hostBe s.operandA / 2 ^ (pos + 1 - bits) % 2 ^ bits ∧
      exec (.bfx pos bits) s = .next (completedWith s 1 false false res)

/-- BFD (R59): for a legal field the result is a stored word, in 32 bits, whose numeric value has B[Bits−1:0] in
bits Pos … Pos−Bits+1 and every other bit unchanged, with OK and no flag. -/
def Obligations.BfdDepositsField : Prop :=
  ∀ (s : State) (pos bits : Nat), pos ≤ 31 → 1 ≤ bits → bits ≤ pos + 1 →
    ∃ res : DWord,
      res.toNat < 2 ^ 32 ∧
      (∀ k, k < 32 → (wireValue s.params.hostBe res).testBit k =
        if pos + 1 - bits ≤ k ∧ k ≤ pos then s.regs.opb.getLsbD (k - (pos + 1 - bits))
        else (wireValue s.params.hostBe s.operandA).testBit k) ∧
      exec (.bfd pos bits) s = .next (completedWith s 1 false false res)

/-- BAD_FIELD (R56): a bit-field command with Bits > Pos + 1 completes with `fail BAD_FIELD`. -/
def Obligations.BadFieldCompletes : Prop :=
  ∀ (s : State) (pos bits : Nat), bits > pos + 1 →
    exec (.bfx pos bits) s = .next (failedWith s 4) ∧ exec (.bfd pos bits) s = .next (failedWith s 4)

/-- R57: whatever HOST_BE is, converting the native load of four wire bytes gives b0 : b1 : b2 : b3, and the
conversion back is the same function. -/
def Obligations.StoredWordIsWireValue : Prop :=
  ∀ hostBe : Bool,
    (∀ b0 b1 b2 b3 : Byte,
      storedWord hostBe ((hostLoad hostBe [b0, b1, b2, b3]).setWidth 32) = b0 ++ b1 ++ b2 ++ b3) ∧
    ∀ a : Word, storedWord hostBe (storedWord hostBe a) = a

/-- R60: with Bits = 1, BFX returns bit Pos as 0 or 1, and BFD writes B[0] into bit Pos and no other bit. -/
def Obligations.OneBitFieldIsFlag : Prop :=
  ∀ (s : State) (pos : Nat), pos ≤ 31 →
    (∃ res : DWord,
      res = (if (wireValue s.params.hostBe s.operandA).testBit pos then 1#64 else 0#64) ∧
      exec (.getflag pos) s = .next (completedWith s 1 false false res)) ∧
    ∃ res : DWord,
      (∀ k, k < 32 → (wireValue s.params.hostBe res).testBit k =
        if k = pos then s.regs.opb.getLsbD 0 else (wireValue s.params.hostBe s.operandA).testBit k) ∧
      exec (.putflag pos) s = .next (completedWith s 1 false false res)

/-- The six laws of R61, for legal fields, with `get` = BFX's RES and `set` = BFD's RES[31:0]. -/
def Obligations.BitFieldLaws : Prop :=
  ∀ (hostBe : Bool) (pos bits : Nat) (a b : Word), pos ≤ 31 → 1 ≤ bits → bits ≤ pos + 1 →
    let get := fun w : Word => (bfx hostBe pos bits w).res
    let set := fun w v : Word => ((bfd hostBe pos bits w v).res).setWidth 32
    (get (set a b)).toNat = b.toNat % 2 ^ bits ∧
    storedWord hostBe (set a b) &&& ~~~(fieldMask (pos + 1 - bits) bits) =
      storedWord hostBe a &&& ~~~(fieldMask (pos + 1 - bits) bits) ∧
    set a ((get a).setWidth 32) = a ∧
    (∀ (pos' bits' : Nat) (b' : Word), pos' ≤ 31 → 1 ≤ bits' → bits' ≤ pos' + 1 →
      (pos < pos' + 1 - bits' ∨ pos' < pos + 1 - bits) →
      let set' := fun w v : Word => ((bfd hostBe pos' bits' w v).res).setWidth 32
      set' (set a b) b' = set (set' a b') b) ∧
    (bfx hostBe 31 32 a).res = conv hostBe .four (a.setWidth 64) ∧
    (bfd hostBe 31 32 a b).res = conv hostBe .four (b.setWidth 64)

/-! ## Endian conversion (41_endian.md, 20_memory.md R33) -/

/-- R62: `byteswap_n` reverses the low n bytes and discards the rest; it is an involution on n bytes. -/
def Obligations.ByteswapReversesBytes : Prop :=
  ∀ (n : Size) (v : DWord),
    (∀ k, k < 8 → byteAt (byteswap n v) k = if k < n.bytes then byteAt v (n.bytes - 1 - k) else 0#8) ∧
    (byteswap n (byteswap n v)).toNat = v.toNat % 2 ^ (8 * n.bytes)

/-- TOBE (R64) and FROMBE (R65): both complete with OK, no flag and the low n bytes of A, reversed when the host is
little-endian and in place when it is big-endian, with zeros above. -/
def Obligations.EndianCommandsConvert : Prop :=
  ∀ (s : State) (n : Size), ∃ res : DWord,
    (∀ k, k < 8 → byteAt res k =
      if k < n.bytes then byteAt s.operandA (if s.params.hostBe then k else n.bytes - 1 - k) else 0#8) ∧
    exec (.tobe n) s = .next (completedWith s 1 false false res) ∧
    exec (.frombe n) s = .next (completedWith s 1 false false res)

/-- R33: the bytes of a native store are those whose native load gives the low n bytes back, in memory too, and a
store changes no other address. -/
def Obligations.NativeLoadUndoesStore : Prop :=
  ∀ (hostBe : Bool) (n : Size) (m : Memory) (p : Nat) (v : DWord), m.wf →
    (hostLoad hostBe (hostStore hostBe n.bytes v)).toNat = v.toNat % 2 ^ (8 * n.bytes) ∧
    (Memory.nativeLoad hostBe n.bytes (Memory.nativeStore hostBe n.bytes m p v) p).toNat =
      v.toNat % 2 ^ (8 * n.bytes) ∧
    ∀ a, (a < p ∨ p + n.bytes ≤ a) → (Memory.nativeStore hostBe n.bytes m p v).read a = m.read a

/-- R66: a native store of TOBE's result writes A's low n bytes most significant first, and FROMBE of natively loaded
wire bytes gives their big-endian numeric value, whatever HOST_BE is. -/
def Obligations.WireBytesAreHostIndependent : Prop :=
  ∀ (s : State) (n : Size) (m : Memory) (p : Nat), m.wf →
    (∃ t, exec (.tobe n) s = .next t ∧
      ∀ k, k < n.bytes →
        (Memory.nativeStore s.params.hostBe n.bytes m p t.result).read (p + k) =
          byteAt s.operandA (n.bytes - 1 - k)) ∧
    (s.operandA = Memory.nativeLoad s.params.hostBe n.bytes m p →
      ∃ t, exec (.frombe n) s = .next t ∧
        t.result.toNat = bigEndianValue ((List.range n.bytes).map fun k => m.read (p + k)))

/-! ## Fixed point (42_fixedpoint.md) -/

/-- R68: the value of a binary64 pattern from its sign, exponent and fraction fields. -/
def Obligations.Binary64Values : Prop :=
  ∀ (s : Bool) (e : BitVec 11) (f : BitVec 52),
    let x : DWord := BitVec.ofBool s ++ e ++ f
    (e.toNat = 2047 → f ≠ 0#52 → f64Value x = .nan) ∧
    (e.toNat = 2047 → f = 0#52 → f64Value x = .inf s) ∧
    (e.toNat = 0 → ∃ sig exp, f64Value x = .finite sig exp ∧
      dyadic sig exp = (-1) ^ s.toNat * (f.toNat : ℚ) / 2 ^ 1074) ∧
    (e.toNat ≠ 2047 → e.toNat ≠ 0 → ∃ sig exp, f64Value x = .finite sig exp ∧
      dyadic sig exp = (-1) ^ s.toNat * ((2 : ℚ) ^ 52 + f.toNat) * (2 : ℚ) ^ ((e.toNat : Int) - 1075))

/-- R69: `round_tie(t)` is the integer nearest to t, at a halfway t the one FX_TIE chooses, and the only such. -/
def Obligations.RoundTieIsNearest : Prop :=
  ∀ (tie : Tie) (t : Scaled),
    RoundsTo tie t.toRat (roundTie tie t) ∧ ∀ i : Int, RoundsTo tie t.toRat i → i = roundTie tie t

/-- R72: scaling by 2^R is exact. -/
def Obligations.ScalingIsExact : Prop :=
  ∀ (sig exp : Int) (r : Nat), (scale sig exp r).toRat = dyadic sig exp * 2 ^ r

/-- R70: the container of an in-range value holds it sign-extended to C(N) bits, with zeros above. -/
def Obligations.ContainerHoldsValue : Prop :=
  ∀ (n : Nat) (i : Int), 1 ≤ n → n ≤ 64 → InRange n i →
    containerWidth n = (if n ≤ 8 then 8 else if n ≤ 16 then 16 else if n ≤ 32 then 32 else 64) ∧
    (container n i).toNat < 2 ^ containerWidth n ∧
    ((container n i).setWidth (containerWidth n)).toInt = i

/-- TOINT in range (R72): a finite operand whose rounded value is in range completes with OK and that value, and
INEXACT exactly when rounding changed it, whatever SAT is. -/
def Obligations.TointConvertsInRange : Prop :=
  ∀ (s : State) (n r : Nat) (sat : Bool) (sig exp i : Int), 1 ≤ n → n ≤ 64 → r ≤ 63 →
    f64Value s.operandA = .finite sig exp → RoundsTo s.params.fxTie (dyadic sig exp * 2 ^ r) i → InRange n i →
    ∃ inexact : Bool, (inexact = true ↔ (i : ℚ) ≠ dyadic sig exp * 2 ^ r) ∧
      exec (.toint n r sat) s = .next (completedWith s 1 false inexact (container n i))

/-- TOINT with SAT = 0 rejects a value out of range, an infinity included, with `fail RANGE` (R72). -/
def Obligations.TointRejectsOutOfRange : Prop :=
  ∀ (s : State) (n r : Nat), 1 ≤ n → n ≤ 64 → r ≤ 63 → OutOfRange s.params.fxTie n r s.operandA →
    exec (.toint n r false) s = .next (failedWith s 5)

/-- TOINT with SAT = 1 clamps a finite value out of range to the nearer bound, sets SAT, and sets INEXACT exactly
when x·2^R is not an integer (R72). -/
def Obligations.TointSaturatesFinite : Prop :=
  ∀ (s : State) (n r : Nat) (sig exp i : Int), 1 ≤ n → n ≤ 64 → r ≤ 63 →
    f64Value s.operandA = .finite sig exp → RoundsTo s.params.fxTie (dyadic sig exp * 2 ^ r) i → ¬ InRange n i →
    ∃ inexact : Bool, (inexact = true ↔ (i : ℚ) ≠ dyadic sig exp * 2 ^ r) ∧
      exec (.toint n r true) s = .next (completedWith s 1 true inexact
        (container n (if i < 0 then -(2 : Int) ^ (n - 1) else (2 : Int) ^ (n - 1) - 1)))

/-- TOINT with SAT = 1 clamps an infinity to the bound of its sign, sets SAT and not INEXACT (R72). -/
def Obligations.TointSaturatesInfinity : Prop :=
  ∀ (s : State) (n r : Nat) (neg : Bool), f64Value s.operandA = .inf neg →
    exec (.toint n r true) s = .next (completedWith s 1 true false
      (container n (if neg then -(2 : Int) ^ (n - 1) else (2 : Int) ^ (n - 1) - 1)))

/-- TOINT of a NaN fails with NAN for both SAT values (R72). -/
def Obligations.TointRejectsNaN : Prop :=
  ∀ (s : State) (n r : Nat) (sat : Bool), f64Value s.operandA = .nan →
    exec (.toint n r sat) s = .next (failedWith s 6)

/-- R73: `rne_f64(r)` is a binary64 integer no farther from r than any other, with ties to the even last significand
bit; it is r itself whenever r fits 53 significant bits; and it never exceeds 2^63 in magnitude. -/
def Obligations.RneF64IsNearestEven : Prop :=
  ∀ r : Int, |r| ≤ 2 ^ 63 →
    FitsSignificand (rneF64 r) ∧ (∀ q : Int, FitsSignificand q → |rneF64 r - r| ≤ |q - r|) ∧
    RoundsToEven r (rneF64 r) ∧
    (|r| ≤ 2 ^ 53 → rneF64 r = r) ∧ (FitsSignificand r → rneF64 r = r) ∧ |rneF64 r| ≤ 2 ^ 63

/-- TOFP (R74): the result is the binary64 pattern of q / 2^R, with q the raw value rounded to the nearest binary64
value; INEXACT exactly when q differs from it; raw 0 gives +0.0. -/
def Obligations.TofpConverts : Prop :=
  ∀ (s : State) (n r : Nat) (raw : Int), 1 ≤ n → n ≤ 64 → r ≤ 63 → IsRaw n s.operandA raw →
    ∃ (q : Int) (inexact : Bool) (res : DWord) (sig exp : Int),
      RoundsToEven raw q ∧ (inexact = true ↔ q ≠ raw) ∧
      f64Value res = .finite sig exp ∧ dyadic sig exp = (q : ℚ) / 2 ^ r ∧ (raw = 0 → res = 0#64) ∧
      exec (.tofp n r) s = .next (completedWith s 1 false inexact res)

/-- R75 law 1: a finite x that TOINT with SAT = 0 accepts comes back from TOFP within 2^−(R+1), and exactly when the
raw value is beyond 2^53. -/
def Obligations.FloatRawFloatQuantization : Prop :=
  ∀ (tie : Tie) (n r : Nat) (a : DWord) (sig exp : Int), 1 ≤ n → n ≤ 64 → r ≤ 63 →
    f64Value a = .finite sig exp → (toint tie n r false a).code = .ok →
    ∃ sig' exp', f64Value (tofp n r (toint tie n r false a).res).res = .finite sig' exp' ∧
      |dyadic sig' exp' - dyadic sig exp| ≤ 1 / 2 ^ (r + 1) ∧
      ((2 : Int) ^ 53 < |rawValue n (toint tie n r false a).res| → dyadic sig' exp' = dyadic sig exp)

/-- R75 law 2: a raw value of magnitude at most 2^53 comes back from TOFP and TOINT unchanged, with no flag. -/
def Obligations.RawFloatRawRoundTrip : Prop :=
  ∀ (tie : Tie) (n r : Nat) (sat : Bool) (a : DWord) (raw : Int), 1 ≤ n → n ≤ 64 → r ≤ 63 →
    IsRaw n a raw → |raw| ≤ 2 ^ 53 →
    (tofp n r a).flags = noFlags ∧
    toint tie n r sat (tofp n r a).res = done noFlags (container n raw)

/-- The boundary values of R75 law 3 for (64, 20), the sentinel of R76 as an ordinary number for (32, 22), and
R75's raw hi(64), which TOFP rounds up to 2^63, out of range for TOINT. -/
def Obligations.NamedFixedPointValues : Prop :=
  ∀ tie : Tie,
    toint tie 64 20 false 0x3FF0000000000000#64 = done noFlags 0x100000#64 ∧
    tofp 64 20 0x100000#64 = done noFlags 0x3FF0000000000000#64 ∧
    toint tie 64 20 false 0x3EB0000000000000#64 = done noFlags 0x1#64 ∧
    tofp 64 20 0x1#64 = done noFlags 0x3EB0000000000000#64 ∧
    tofp 32 22 0x7FFFFFFF#64 = done noFlags 0x407FFFFFFFC00000#64 ∧
    tofp 64 0 0x7FFFFFFFFFFFFFFF#64 = done { sat := false, inexact := true } 0x43E0000000000000#64 ∧
    toint tie 64 0 false 0x43E0000000000000#64 = failed .range

/-! ## Host scripts (30_encoding.md R55) -/

/-- R55: a `wr CMD, <command>` line writes the command's encoding, and the block has run the command when the line is
done; an `rd` line binds the register's value and changes no register; a `reset` line is one reset step. The form of
the script layer (System, line numbers, the variable list) is the model's choice (log 9), and so is that a reset
leaves the record of responses as it is (log 4). -/
def Obligations.HostLinesActOnBlock : Prop :=
  ∀ y : System, y.block.pending = [] →
    (∀ (c : CommandExpr) (i : Instr), evalCommand y.vars c = some i →
      ∃ t, exec i (cmdWritten y.block (encode i) []) = .next t ∧
        runLine (.wrCommand c) y = .running { y with block := t, line := y.line + 1 }) ∧
    (∀ (x : Reg) (d : Var),
      runLine (.rd x d) y = .running { y with
        block := answered y.block [] { code := .ok, data := some (y.block.regs.get x) }
        vars := (d, .word (y.block.regs.get x)) :: y.vars
        line := y.line + 1 }) ∧
    runLine .reset y = .running { y with block := { y.block with regs := Regs.reset }, line := y.line + 1 }

/-- R55: an `acc W` line binds the response, and a condition compares it: after the line, `if r == ERROR goto L` goes
to L exactly when the access was not legal (R28, R29), and `if r == OK goto L` exactly when it was. The form of the
script layer is the model's choice (log 9). -/
def Obligations.HostBranchesOnResponse : Prop :=
  ∀ (y : System) (off : Fin 32) (width : Nat) (e : Expr) (v : Word) (r : Var) (label : Nat),
    y.block.pending = [] → evalExpr y.vars e = some (.word v) →
    ∃ z, runLine (.accWrite off width e r) y = .running z ∧ z.line = y.line + 1 ∧
      runLine (.ifGoto (.eq (.var r) (.response .error)) label) z =
        .running { z with line := if (Access.write off width v).legal then z.line + 1 else label } ∧
      runLine (.ifGoto (.eq (.var r) (.response .ok)) label) z =
        .running { z with line := if (Access.write off width v).legal then label else z.line + 1 }
end

