-- ==== Sys2Proof/Laws/Decode.lean ====
section
/-! SUPPORT. The fields of a command word as arithmetic on its number, and the reserved bits of a format as a slice
that must be zero: what proofs about `decode` and `encode` need. -/

namespace Sys2Proof

/-! ## Fields as arithmetic -/

theorem Field.op_toNat (c : Word) : (Field.op c).toNat = c.toNat / 2 ^ 28 := by
  have := c.isLt
  simp only [Field.op, BitVec.extractLsb'_toNat, Nat.shiftRight_eq_div_pow]
  omega

theorem Field.pos_eq (c : Word) : Field.pos c = c.toNat % 2 ^ 5 := by
  simp [Field.pos, BitVec.extractLsb'_toNat]

theorem Field.bits_eq (c : Word) : Field.bits c = c.toNat / 2 ^ 5 % 2 ^ 5 + 1 := by
  simp [Field.bits, BitVec.extractLsb'_toNat, Nat.shiftRight_eq_div_pow]

theorem Field.n_eq (c : Word) : Field.n c = c.toNat % 2 ^ 6 + 1 := by
  simp [Field.n, BitVec.extractLsb'_toNat]

theorem Field.r_eq (c : Word) : Field.r c = c.toNat / 2 ^ 6 % 2 ^ 6 := by
  simp [Field.r, BitVec.extractLsb'_toNat, Nat.shiftRight_eq_div_pow]

theorem Field.sat_eq (c : Word) : Field.sat c = decide (c.toNat / 2 ^ 12 % 2 = 1) := by
  simp [Field.sat, BitVec.getLsbD, Nat.testBit_eq_decide_div_mod_eq]

/-! ## A run of bits that must be zero -/

/-- A number and `len` ones from bit `k` up: the slice of those bits, left in place. -/
theorem and_run (x k len : Nat) : x &&& ((2 ^ len - 1) * 2 ^ k) = x / 2 ^ k % 2 ^ len * 2 ^ k := by
  apply Nat.eq_of_testBit_eq
  intro i
  simp only [Nat.testBit_and, ← Nat.shiftLeft_eq, Nat.testBit_shiftLeft, Nat.testBit_two_pow_sub_one,
    Nat.testBit_mod_two_pow, Nat.testBit_div_two_pow]
  by_cases h : k ≤ i
  · have : i - k + k = i := by omega
    simp [h, this, Bool.and_comm]
  · simp [h]

/-- The reserved bits `len` from bit `k` up are all 0 exactly when that slice of the number is 0. -/
theorem and_mask_eq_zero_iff (c : Word) (k len : Nat) (h : (2 ^ len - 1) * 2 ^ k < 2 ^ 32) :
    c &&& BitVec.ofNat 32 ((2 ^ len - 1) * 2 ^ k) = 0#32 ↔ c.toNat / 2 ^ k % 2 ^ len = 0 := by
  rw [← BitVec.toNat_inj, BitVec.toNat_and, BitVec.toNat_ofNat, Nat.mod_eq_of_lt h, and_run]
  simp

/-- Format BF: bits 27:10 (R44). -/
theorem reserved_bf_iff (c : Word) : c &&& 0x0FFFFC00#32 = 0#32 ↔ c.toNat / 2 ^ 10 % 2 ^ 18 = 0 :=
  and_mask_eq_zero_iff c 10 18 (by decide)

/-- Format ES: bits 27:2 (R45). -/
theorem reserved_es_iff (c : Word) : c &&& 0x0FFFFFFC#32 = 0#32 ↔ c.toNat / 2 ^ 2 % 2 ^ 26 = 0 :=
  and_mask_eq_zero_iff c 2 26 (by decide)

/-- TOINT: bits 27:13 (R46). -/
theorem reserved_toint_iff (c : Word) : c &&& 0x0FFFE000#32 = 0#32 ↔ c.toNat / 2 ^ 13 % 2 ^ 15 = 0 :=
  and_mask_eq_zero_iff c 13 15 (by decide)

/-- TOFP: bits 27:12 (R46). -/
theorem reserved_tofp_iff (c : Word) : c &&& 0x0FFFF000#32 = 0#32 ↔ c.toNat / 2 ^ 12 % 2 ^ 16 = 0 :=
  and_mask_eq_zero_iff c 12 16 (by decide)

/-- What decoding a word of a named operation gives. -/
theorem decode_of_op {c : Word} {op : Op} (h : Op.ofCode (Field.op c) = some op) :
    decode c = if c &&& op.reserved ≠ 0#32 then .reservedField else .command (op.instr c) := by
  unfold decode
  rw [h]

@[simp] theorem Op.ofCode_code (op : Op) : Op.ofCode op.code = some op := by cases op <;> rfl

@[simp] theorem Op.instr_op (op : Op) (c : Word) : (op.instr c).op = op := by cases op <;> rfl

end Sys2Proof
end

