-- ==== Sys2Proof/Laws/State.lean ====
section
/-! SUPPORT. One lemma per field per update: setting a register, recording a response, completing a command. -/

namespace Sys2Proof.Machine

/-! ## Registers by name -/

@[simp] theorem Regs.get_set_same (g : Regs) (x : Reg) (v : Word) : (g.set x v).get x = v := by cases x <;> rfl

theorem Regs.get_set_other (g : Regs) {x y : Reg} (v : Word) (h : y ≠ x) : (g.set x v).get y = g.get y := by
  cases x <;> cases y <;> first | rfl | exact absurd rfl h

@[simp] theorem Regs.set_cmd (g : Regs) (v : Word) : g.set .cmd v = { g with cmd := v } := rfl
@[simp] theorem Regs.set_opaLo (g : Regs) (v : Word) : g.set .opaLo v = { g with opaLo := v } := rfl
@[simp] theorem Regs.set_opaHi (g : Regs) (v : Word) : g.set .opaHi v = { g with opaHi := v } := rfl
@[simp] theorem Regs.set_opb (g : Regs) (v : Word) : g.set .opb v = { g with opb := v } := rfl

/-! ## setReg -/

@[simp] theorem State.setReg_regs (s : State) (x : Reg) (v : Word) : (s.setReg x v).regs = s.regs.set x v := rfl
@[simp] theorem State.setReg_params (s : State) (x : Reg) (v : Word) : (s.setReg x v).params = s.params := rfl
@[simp] theorem State.setReg_pending (s : State) (x : Reg) (v : Word) : (s.setReg x v).pending = s.pending := rfl
@[simp] theorem State.setReg_responses (s : State) (x : Reg) (v : Word) :
    (s.setReg x v).responses = s.responses := rfl

/-! ## respond -/

@[simp] theorem State.respond_regs (s : State) (r : Response) : (s.respond r).regs = s.regs := rfl
@[simp] theorem State.respond_params (s : State) (r : Response) : (s.respond r).params = s.params := rfl
@[simp] theorem State.respond_pending (s : State) (r : Response) : (s.respond r).pending = s.pending := rfl
@[simp] theorem State.respond_responses (s : State) (r : Response) :
    (s.respond r).responses = s.responses ++ [r] := rfl
@[simp] theorem State.respond_operandA (s : State) (r : Response) : (s.respond r).operandA = s.operandA := rfl
@[simp] theorem State.respond_operandB (s : State) (r : Response) : (s.respond r).operandB = s.operandB := rfl
@[simp] theorem State.respond_result (s : State) (r : Response) : (s.respond r).result = s.result := rfl

/-! ## finish -/

@[simp] theorem finish_cmd (c : Completion) (s : State) : (finish c s).regs.cmd = s.regs.cmd := rfl
@[simp] theorem finish_status (c : Completion) (s : State) :
    (finish c s).regs.status = statusWord c.code c.flags := rfl
@[simp] theorem finish_opaLo (c : Completion) (s : State) : (finish c s).regs.opaLo = s.regs.opaLo := rfl
@[simp] theorem finish_opaHi (c : Completion) (s : State) : (finish c s).regs.opaHi = s.regs.opaHi := rfl
@[simp] theorem finish_opb (c : Completion) (s : State) : (finish c s).regs.opb = s.regs.opb := rfl
@[simp] theorem finish_resLo (c : Completion) (s : State) :
    (finish c s).regs.resLo = c.res.extractLsb' 0 32 := rfl
@[simp] theorem finish_resHi (c : Completion) (s : State) :
    (finish c s).regs.resHi = c.res.extractLsb' 32 32 := rfl
@[simp] theorem finish_params (c : Completion) (s : State) : (finish c s).params = s.params := rfl
@[simp] theorem finish_pending (c : Completion) (s : State) : (finish c s).pending = s.pending := rfl
@[simp] theorem finish_responses (c : Completion) (s : State) : (finish c s).responses = s.responses := rfl
@[simp] theorem finish_operandA (c : Completion) (s : State) : (finish c s).operandA = s.operandA := rfl
@[simp] theorem finish_operandB (c : Completion) (s : State) : (finish c s).operandB = s.operandB := rfl

/-! ## Reset -/

/-- BASE is aligned in the instance that reset stands for, whatever its slot is (R5). -/
theorem reset_params_wf : State.reset.params.wf := Nat.mul_mod_right 32 Config.baseSlot

/-! ## The completions -/

@[simp] theorem done_code (f : Flags) (r : DWord) : (done f r).code = .ok := rfl
@[simp] theorem done_flags (f : Flags) (r : DWord) : (done f r).flags = f := rfl
@[simp] theorem done_res (f : Flags) (r : DWord) : (done f r).res = r := rfl
@[simp] theorem failed_code (c : Code) : (failed c).code = c := rfl
@[simp] theorem failed_flags (c : Code) : (failed c).flags = noFlags := rfl
@[simp] theorem failed_res (c : Code) : (failed c).res = 0#64 := rfl

end Sys2Proof.Machine
end

