-- ==== Sys2Proof/Laws/Ops.lean ====
section
/-! SUPPORT. What completing a command leaves readable: the fields of the status word and the whole result. -/

namespace Sys2Proof.Machine

/-- The two result registers together hold the completion's result. -/
@[simp] theorem finish_result (c : Completion) (s : State) : (finish c s).result = c.res := by
  simp only [State.result, finish_resHi, finish_resLo]
  apply BitVec.eq_of_toNat_eq
  have := c.res.isLt
  simp only [BitVec.toNat_append, BitVec.extractLsb'_toNat, Nat.shiftLeft_eq, Nat.shiftRight_eq_div_pow]
  rw [Nat.mul_comm, ← Nat.two_pow_add_eq_or_of_lt (by omega)]
  omega

@[simp] theorem codeField_statusWord (c : Code) (f : Flags) :
    codeField (statusWord c f) = BitVec.ofNat 4 (codeValue c) := by
  obtain ⟨sat, inexact⟩ := f
  cases c <;> cases sat <;> cases inexact <;> decide

@[simp] theorem satFlag_statusWord (c : Code) (f : Flags) : satFlag (statusWord c f) = f.sat := by
  obtain ⟨sat, inexact⟩ := f
  cases c <;> cases sat <;> cases inexact <;> decide

@[simp] theorem inexactFlag_statusWord (c : Code) (f : Flags) : inexactFlag (statusWord c f) = f.inexact := by
  obtain ⟨sat, inexact⟩ := f
  cases c <;> cases sat <;> cases inexact <;> decide

@[simp] theorem statusWord_reserved (c : Code) (f : Flags) : statusWord c f &&& statusReserved = 0#32 := by
  obtain ⟨sat, inexact⟩ := f
  cases c <;> cases sat <;> cases inexact <;> decide

/-- The arithmetic form of the status word. -/
theorem statusWord_eq_ofNat (c : Code) (f : Flags) :
    statusWord c f = BitVec.ofNat 32 (512 * f.inexact.toNat + 256 * f.sat.toNat + codeValue c) := by
  obtain ⟨sat, inexact⟩ := f
  cases c <;> cases sat <;> cases inexact <;> decide

theorem codeValue_le_six (c : Code) : codeValue c ≤ 6 := by cases c <;> decide

/-- Completing twice is completing with the second. -/
@[simp] theorem finish_finish (c d : Completion) (s : State) : finish c (finish d s) = finish c s := rfl

/-- `complete` always answers a next state. -/
theorem complete_eq_next (c : Completion) (s : State) : complete c s = .next (finish c s) := rfl

end Sys2Proof.Machine
end

