-- ==== Sys2Proof/Laws/Exec.lean ====
section
/-! SUPPORT. What a command and a command word can do, said once: each answers a next state that is one completion
of the state it ran in. Provers cite these instead of unfolding `exec`. -/

namespace Sys2Proof.Machine

/-- A completion that is a success, or a failure with an error code, no flag and a zero result (R79). -/
def Completion.Sound (c : Completion) : Prop :=
  c.code = .ok ∨ (c.code ≠ .none ∧ c = failed c.code)

theorem sound_done (f : Flags) (r : DWord) : (done f r).Sound := .inl rfl

theorem sound_failed {c : Code} (h : c ≠ .none) : (failed c).Sound := .inr ⟨h, rfl⟩

theorem bfx_sound (be : Bool) (pos bits : Nat) (a : Word) : (bfx be pos bits a).Sound := by
  unfold bfx
  split
  · exact sound_failed (by decide)
  · exact sound_done _ _

theorem bfd_sound (be : Bool) (pos bits : Nat) (a b : Word) : (bfd be pos bits a b).Sound := by
  unfold bfd
  split
  · exact sound_failed (by decide)
  · exact sound_done _ _

theorem placeRounded_sound (n : Nat) (sat inexact : Bool) (v : Rounded) : (placeRounded n sat inexact v).Sound := by
  unfold placeRounded
  split
  · split
    · exact sound_done _ _
    · exact sound_failed (by decide)
  · split
    · split
      · exact sound_done _ _
      · exact sound_failed (by decide)
    · cases v with
      | int i => exact sound_done _ _
      | negInf => exact sound_failed (by decide)
      | posInf => exact sound_failed (by decide)

theorem toint_sound (tie : Tie) (n r : Nat) (sat : Bool) (a : DWord) : (toint tie n r sat a).Sound := by
  unfold toint
  split
  · exact sound_failed (by decide)
  · exact placeRounded_sound _ _ _ _
  · exact placeRounded_sound _ _ _ _

/-- The completion of a command: a function of the parameters, A and B alone (R25). -/
def completionOf (i : Instr) (s : State) : Completion :=
  match i with
  | .bfx pos bits => bfx s.params.hostBe pos bits (s.operandA.setWidth 32)
  | .bfd pos bits => bfd s.params.hostBe pos bits (s.operandA.setWidth 32) s.operandB
  | .tobe size => done noFlags (conv s.params.hostBe size s.operandA)
  | .frombe size => done noFlags (conv s.params.hostBe size s.operandA)
  | .toint n r sat => toint s.params.fxTie n r sat s.operandA
  | .tofp n r => tofp n r s.operandA

/-- The completion of a command word (R49, R50, R52). -/
def completionOfWord (w : Word) (s : State) : Completion :=
  match decode w with
  | .command i => completionOf i s
  | .illegalOpcode => failed .illegalOpcode
  | .reservedField => failed .reservedField

/-- Every command answers a next state: its completion of the state it ran in. -/
theorem exec_eq (i : Instr) (s : State) : exec i s = .next (finish (completionOf i s) s) := by cases i <;> rfl

/-- So does every command word. -/
theorem execute_eq (w : Word) (s : State) : execute w s = .next (finish (completionOfWord w s) s) := by
  unfold execute completionOfWord
  cases decode w with
  | command i => exact exec_eq i s
  | illegalOpcode => rfl
  | reservedField => rfl

theorem completionOf_sound (i : Instr) (s : State) : (completionOf i s).Sound := by
  cases i with
  | bfx pos bits => exact bfx_sound _ _ _ _
  | bfd pos bits => exact bfd_sound _ _ _ _ _
  | tobe size => exact sound_done _ _
  | frombe size => exact sound_done _ _
  | toint n r sat => exact toint_sound _ _ _ _ _
  | tofp n r => exact sound_done _ _

theorem completionOfWord_sound (w : Word) (s : State) : (completionOfWord w s).Sound := by
  unfold completionOfWord
  cases decode w with
  | command i => exact completionOf_sound i s
  | illegalOpcode => exact sound_failed (by decide)
  | reservedField => exact sound_failed (by decide)

/-- The code of a sound completion is not NONE (R19). -/
theorem Completion.Sound.code_ne_none {c : Completion} (h : c.Sound) : c.code ≠ .none := by
  rcases h with h | ⟨h, -⟩
  · rw [h]; decide
  · exact h

/-- A sound completion with another code than OK has no flag and a zero result (R79). -/
theorem Completion.Sound.failed_of_ne_ok {c : Completion} (h : c.Sound) (hc : c.code ≠ .ok) :
    c.flags = noFlags ∧ c.res = 0#64 := by
  rcases h with h | ⟨-, h⟩
  · exact absurd h hc
  · rw [h]; exact ⟨rfl, rfl⟩

end Sys2Proof.Machine
end

