-- ==== Sys2Proof/Laws/Window.lean ====
section
/-! SUPPORT. What the window names and what one step can do: the inversion lemma of `step`. -/

namespace Sys2Proof.Machine

@[simp] theorem regAt_offset (x : Reg) : regAt x.offset = some x := by cases x <;> rfl

/-- The seven places that name a register. -/
theorem regAt_eq_some_iff (off : Fin 32) (x : Reg) : regAt off = some x ↔ off = x.offset := by
  revert off
  cases x <;> decide

@[simp] theorem readTarget_offset (x : Reg) : readTarget x.offset 4 = some x := by cases x <;> rfl

@[simp] theorem writeTarget_cmd : writeTarget 0 4 = some .cmd := rfl

/-- The seven places a legal read reads. -/
theorem readTarget_eq_some_iff (off : Fin 32) (width : Nat) (x : Reg) :
    readTarget off width = some x ↔ width = 4 ∧ off = x.offset := by
  unfold readTarget
  split
  · rw [regAt_eq_some_iff]
    exact ⟨fun h => ⟨‹_ ∧ _›.1, h⟩, fun h => h.2⟩
  · rename_i hn
    refine ⟨fun h => (nomatch h), fun ⟨hw, ho⟩ => absurd ⟨hw, ?_⟩ hn⟩
    subst ho
    cases x <;> decide

/-- The four places a legal write writes. -/
theorem writeTarget_eq_some_iff (off : Fin 32) (width : Nat) (x : Reg) :
    writeTarget off width = some x ↔ width = 4 ∧ off = x.offset ∧ x.writable = true := by
  unfold writeTarget
  split
  · rename_i y hy
    obtain ⟨hw, ho⟩ := (readTarget_eq_some_iff _ _ _).1 hy
    subst hw ho
    have : y.offset = x.offset ↔ y = x := by cases x <;> cases y <;> decide
    split
    · simp only [Option.some.injEq, this, true_and]
      exact ⟨fun h => ⟨h, h ▸ ‹_›⟩, fun h => h.1⟩
    · rename_i hr
      simp only [this, true_and, false_iff, reduceCtorEq]
      rintro ⟨rfl, h⟩
      exact hr h
  · rename_i hn
    refine ⟨fun h => (nomatch h), fun ⟨hw, ho, _⟩ => ?_⟩
    rw [(readTarget_eq_some_iff off width x).2 ⟨hw, ho⟩] at hn
    cases hn

/-- A write access of any kind is answered by one response, OK exactly when the access is legal. -/
theorem performWrite_answers (off : Fin 32) (width : Nat) (v : Word) (s : State) :
    ∃ t, performWrite off width v s = .next t ∧ t.params = s.params ∧ t.pending = s.pending ∧
      t.responses = s.responses ++ [if (Access.write off width v).legal then writeOk else writeError] := by
  have hl : (Access.write off width v).legal = (writeTarget off width).isSome := rfl
  rw [hl]
  unfold performWrite
  split <;> rename_i h <;> rw [h]
  · exact ⟨_, execute_eq _ _, rfl, rfl, rfl⟩
  · exact ⟨_, rfl, rfl, rfl, rfl⟩
  · exact ⟨_, rfl, rfl, rfl, rfl⟩

/-- Everything a step can do; `execute_eq` says what executing a word does. -/
theorem step_cases (s : State) :
    (s.pending = [] ∧ step s = .next s) ∨
    (∃ rest, s.pending = .reset :: rest ∧ step s = .next (performReset { s with pending := rest })) ∨
    (∃ off width rest, s.pending = .access (.read off width) :: rest ∧
      step s = .next (performRead off width { s with pending := rest })) ∨
    (∃ off width v rest, s.pending = .access (.write off width v) :: rest ∧ writeTarget off width = none ∧
      step s = .next (({ s with pending := rest } : State).respond writeError)) ∨
    (∃ off width v rest x, s.pending = .access (.write off width v) :: rest ∧ writeTarget off width = some x ∧
      x ≠ .cmd ∧ step s = .next ((({ s with pending := rest } : State).setReg x v).respond writeOk)) ∨
    (∃ off width v rest, s.pending = .access (.write off width v) :: rest ∧ writeTarget off width = some .cmd ∧
      step s = execute v ((({ s with pending := rest } : State).setReg .cmd v).respond writeOk)) := by
  unfold step takePending
  cases hp : s.pending with
  | nil => exact .inl ⟨rfl, rfl⟩
  | cons i rest =>
    right
    cases i with
    | reset => exact .inl ⟨rest, rfl, rfl⟩
    | access a =>
      right
      cases a with
      | read off width => exact .inl ⟨off, width, rest, rfl, rfl⟩
      | write off width v =>
        right
        simp only [takeInput, performAccess, performWrite]
        cases ht : writeTarget off width with
        | none => exact .inl ⟨off, width, v, rest, rfl, ht, rfl⟩
        | some x =>
          right
          by_cases hx : x = .cmd
          · subst hx
            exact .inr ⟨off, width, v, rest, rfl, ht, rfl⟩
          · refine .inl ⟨off, width, v, rest, x, rfl, ht, hx, ?_⟩
            cases x <;> first | rfl | exact absurd rfl hx

/-- A pending CMD write runs its word in the state that has stored it. -/
theorem step_cmdWrite {s : State} {w : Word} {rest : List Input} (h : s.pending = cmdWrite w :: rest) :
    step s = execute w ((({ s with pending := rest } : State).setReg .cmd w).respond writeOk) := by
  unfold step takePending
  rw [h]
  rfl

end Sys2Proof.Machine
end

