-- ==== Sys2Proof/Laws/HostScript.lean ====
section
/-! SUPPORT. The small lemmas of the host-script layer: one per field per update of System, what offering an input to
the block does, and what a bound variable evaluates to. -/

namespace Sys2Proof.Machine

@[simp] theorem System.advance_block (y : System) : y.advance.block = y.block := rfl
@[simp] theorem System.advance_vars (y : System) : y.advance.vars = y.vars := rfl
@[simp] theorem System.advance_mem (y : System) : y.advance.mem = y.mem := rfl
@[simp] theorem System.advance_line (y : System) : y.advance.line = y.line + 1 := rfl

@[simp] theorem System.bind_block (y : System) (x : Var) (v : HostValue) : (y.bind x v).block = y.block := rfl
@[simp] theorem System.bind_vars (y : System) (x : Var) (v : HostValue) : (y.bind x v).vars = (x, v) :: y.vars := rfl
@[simp] theorem System.bind_mem (y : System) (x : Var) (v : HostValue) : (y.bind x v).mem = y.mem := rfl
@[simp] theorem System.bind_line (y : System) (x : Var) (v : HostValue) : (y.bind x v).line = y.line := rfl

/-- A line that reaches the block is one step of it, on the line's own input. -/
theorem System.offer_eq {y : System} {i : Input} {s : State}
    (h : Sys2Proof.Machine.step { y.block with pending := i :: y.block.pending } = .next s) (next : System → ScriptOutcome) :
    y.offer i next = next { y with block := s } := by
  unfold System.offer
  rw [h]

/-- The response just received is the last one recorded. -/
theorem System.lastResponse_of_responses {y : System} {rs : List Response} {r : Response}
    (h : y.block.responses = rs ++ [r]) : y.lastResponse = some r := by
  simp [System.lastResponse, h]

/-- After a line's access the host binds the response it was answered with. -/
theorem System.bindResponse_of_responses {y : System} {rs : List Response} {p : Response}
    (h : y.block.responses = rs ++ [p]) (r : Var) : y.bindResponse r = y.bind r (.response p.code) := by
  simp [System.bindResponse, System.lastResponse_of_responses h]

/-- The variable bound last holds what it was bound to. -/
@[simp] theorem evalExpr_var_bound (vars : List (Var × HostValue)) (x : Var) (v : HostValue) :
    evalExpr ((x, v) :: vars) (.var x) = some v := by
  simp [evalExpr, lookupVar]

@[simp] theorem evalExpr_const (vars : List (Var × HostValue)) (v : Word) :
    evalExpr vars (.const v) = some (.word v) := rfl

@[simp] theorem evalExpr_response (vars : List (Var × HostValue)) (c : BusCode) :
    evalExpr vars (.response c) = some (.response c) := rfl

/-- An expression with a 32-bit value. -/
theorem evalWord_of_evalExpr {vars : List (Var × HostValue)} {e : Expr} {v : Word}
    (h : evalExpr vars e = some (.word v)) : evalWord vars e = some v := by
  simp [evalWord, h, HostValue.toWord]

/-- Two responses are compared as responses. -/
@[simp] theorem sameValue_responses (c d : BusCode) :
    sameValue (.response c) (.response d) = some (decide (c = d)) := rfl

/-- Two 32-bit values are compared as values. -/
@[simp] theorem sameValue_words (u v : Word) : sameValue (.word u) (.word v) = some (decide (u = v)) := rfl

end Sys2Proof.Machine
end

