-- ==== Sys2Proof/Laws/Memory.lean ====
section
/-! SUPPORT. Host memory: every operation keeps the canonical form, a read after a write gives the byte written,
and a write leaves every other address alone. -/

namespace Sys2Proof.Machine.Memory

theorem wf_nil : Memory.wf [] := ⟨.nil, by simp⟩

/-- Every entry of a written memory is the written one or an entry of before. -/
theorem mem_write {m : Memory} {x : Nat} {v : Byte} {c : Host.Cell} (h : c ∈ m.write x v) :
    (c.1 = x ∧ c.2 = v ∧ v ≠ unlistedByte) ∨ c ∈ m := by
  induction m with
  | nil =>
    unfold Memory.write at h
    split at h
    · cases h
    · simp only [List.mem_singleton] at h
      exact .inl ⟨by rw [h], by rw [h], ‹_›⟩
  | cons d m ih =>
    obtain ⟨a, b⟩ := d
    unfold Memory.write at h
    split at h
    · split at h
      · exact .inr h
      · rcases List.mem_cons.1 h with h | h
        · exact .inl ⟨by rw [h], by rw [h], ‹_›⟩
        · exact .inr h
    · split at h
      · split at h
        · exact .inr (List.mem_cons_of_mem _ h)
        · rcases List.mem_cons.1 h with h | h
          · exact .inl ⟨by rw [h]; exact ‹x = a›.symm, by rw [h], ‹_›⟩
          · exact .inr (List.mem_cons_of_mem _ h)
      · rcases List.mem_cons.1 h with h | h
        · exact .inr (h ▸ List.mem_cons_self ..)
        · rcases ih h with h | h
          · exact .inl h
          · exact .inr (List.mem_cons_of_mem _ h)

/-- Writing a byte keeps the canonical form. -/
theorem write_keeps_wf {m : Memory} (h : m.wf) (x : Nat) (v : Byte) : (m.write x v).wf := by
  refine ⟨?_, fun c hc => ?_⟩
  · induction m with
    | nil => unfold Memory.write; split <;> simp
    | cons d m ih =>
      obtain ⟨a, b⟩ := d
      obtain ⟨hp, hn⟩ := h
      obtain ⟨hh, ht⟩ := List.pairwise_cons.1 hp
      have ih := ih ⟨ht, fun c hc => hn c (List.mem_cons_of_mem _ hc)⟩
      unfold Memory.write
      split
      · split
        · exact hp
        · refine List.pairwise_cons.2 ⟨fun c hc => ?_, hp⟩
          rcases List.mem_cons.1 hc with hc | hc
          · rw [hc]; assumption
          · exact Nat.lt_trans ‹x < a› (hh c hc)
      · split
        · split
          · exact ht
          · exact List.pairwise_cons.2 ⟨hh, ht⟩
        · refine List.pairwise_cons.2 ⟨fun c hc => ?_, ih⟩
          rcases mem_write hc with ⟨hx, -, -⟩ | hc
          · simp only [hx]; omega
          · exact hh c hc
  · rcases mem_write hc with ⟨-, hv, hne⟩ | hc
    · exact hv ▸ hne
    · exact h.2 c hc

/-- Below every entry nothing is listed. -/
theorem read_below {m : Memory} {x : Nat} (h : ∀ c ∈ m, x < c.1) : m.read x = unlistedByte := by
  induction m with
  | nil => rfl
  | cons e m ih =>
    have := h e (List.mem_cons_self ..)
    simp only [Memory.read]
    rw [if_neg (by omega)]
    exact ih fun c hc => h c (List.mem_cons_of_mem _ hc)

/-- A read after a write: the byte written there, and elsewhere what was there. -/
theorem read_write {m : Memory} (h : m.wf) (x y : Nat) (v : Byte) :
    (m.write x v).read y = if y = x then v else m.read y := by
  induction m with
  | nil =>
    unfold Memory.write
    split
    · subst v; simp [Memory.read]
    · simp [Memory.read]
  | cons d m ih =>
    obtain ⟨a, b⟩ := d
    obtain ⟨hp, hn⟩ := h
    obtain ⟨hh, ht⟩ := List.pairwise_cons.1 hp
    have ih := ih ⟨ht, fun c hc => hn c (List.mem_cons_of_mem _ hc)⟩
    unfold Memory.write
    split
    · have hx : Memory.read m x = unlistedByte :=
        read_below fun c hc => Nat.lt_trans ‹x < a› (hh c hc)
      split
      · subst v
        by_cases hy : y = x
        · subst hy
          simp only [Memory.read, if_true]
          rw [if_neg (by omega), hx]
        · simp [hy]
      · simp [Memory.read]
    · split
      · have ha : Memory.read m a = unlistedByte := read_below hh
        subst x
        split
        · subst v
          by_cases hy : y = a
          · simp [hy, ha]
          · simp [Memory.read, hy]
        · simp only [Memory.read]
          split <;> rfl
      · simp only [Memory.read, ih]
        split
        · subst y
          rw [if_neg (Ne.symm ‹_›)]
        · rfl

/-- Writing bytes keeps the canonical form. -/
theorem writeBytes_keeps_wf {m : Memory} (h : m.wf) (p : Nat) (bs : List Byte) : (m.writeBytes p bs).wf := by
  induction bs generalizing m p with
  | nil => exact h
  | cons b bs ih => exact ih (write_keeps_wf h p b) (p + 1)

/-- So does a native store of the host. -/
theorem nativeStore_keeps_wf {m : Memory} (h : m.wf) (be : Bool) (n p : Nat) (v : DWord) :
    (m.nativeStore be n p v).wf := writeBytes_keeps_wf h p _

/-- A read after writing bytes: the byte written there, and elsewhere what was there. -/
theorem read_writeBytes {m : Memory} (h : m.wf) (p y : Nat) (bs : List Byte) :
    (m.writeBytes p bs).read y = if p ≤ y then (bs[y - p]?).getD (m.read y) else m.read y := by
  induction bs generalizing m p with
  | nil => simp [Memory.writeBytes]
  | cons b bs ih =>
    simp only [Memory.writeBytes]
    rw [ih (write_keeps_wf h p b), read_write h]
    by_cases hy : y = p
    · subst hy; simp
    · by_cases hp : p ≤ y
      · have h1 : p + 1 ≤ y := by omega
        have h2 : y - p = (y - (p + 1)) + 1 := by omega
        simp [hp, h1, hy, h2]
      · have h1 : ¬ p + 1 ≤ y := by omega
        simp [hp, h1, hy]

end Sys2Proof.Machine.Memory
end

