-- ==== Sys2Proof/Laws/Operands.lean ====
section
/-! SUPPORT. The small lemmas of the operand forms: bytes, byte order, powers of two, ranges and exact values. -/

namespace Sys2Proof.Machine

/-! ## Bytes -/

theorem byteAt_toNat (v : DWord) (i : Nat) : (byteAt v i).toNat = v.toNat / 2 ^ (8 * i) % 2 ^ 8 := by
  simp [byteAt, BitVec.extractLsb'_toNat, Nat.shiftRight_eq_div_pow]

@[simp] theorem conv_bigEndianHost (n : Size) (v : DWord) : conv true n v = lowBytes n v := rfl

@[simp] theorem conv_littleEndianHost (n : Size) (v : DWord) : conv false n v = byteswap n v := rfl

theorem lowBytes_toNat (n : Size) (v : DWord) : (lowBytes n v).toNat = v.toNat % 2 ^ (8 * n.bytes) := by
  have := v.isLt
  cases n <;> simp only [lowBytes, Size.bytes, BitVec.toNat_setWidth] <;> omega

/-! ## Powers of two and ranges -/

@[simp] theorem pow2_eq (k : Nat) : pow2 k = 2 ^ k := by simp [pow2]

theorem pow2_pos (k : Nat) : 0 < pow2 k := by
  rw [pow2_eq]
  positivity

theorem inRange_iff (n : Nat) (i : Int) : InRange n i ↔ lo n ≤ i ∧ i ≤ hi n := by
  simp [InRange, lo, hi]

theorem Scaled.isInt_iff (t : Scaled) (i : Int) : t.isInt i = true ↔ (i : ℚ) = t.toRat := by
  have h : (0 : ℚ) < 2 ^ t.den := by positivity
  simp only [Scaled.isInt, decide_eq_true_eq, Scaled.toRat, eq_div_iff h.ne', pow2_eq]
  exact_mod_cast Iff.rfl

/-! ## The end of TOINT -/

theorem lo_neg (n : Nat) : lo n < 0 := by
  have := pow2_pos (n - 1)
  unfold lo
  omega

theorem hi_nonneg (n : Nat) : 0 ≤ hi n := by
  have := pow2_pos (n - 1)
  unfold hi
  omega

/-- An integer in range is placed as it is, whatever SAT is. -/
theorem placeRounded_inRange {n : Nat} {i : Int} (h : InRange n i) (sat inexact : Bool) :
    placeRounded n sat inexact (.int i) = done { sat := false, inexact := inexact } (container n i) := by
  obtain ⟨h1, h2⟩ := (inRange_iff n i).1 h
  simp [placeRounded, aboveRange, belowRange, Int.not_lt.2 h1, Int.not_lt.2 h2]

/-- With SAT = 0 a value above or below the range is rejected. -/
theorem placeRounded_reject {n : Nat} {v : Rounded} (h : aboveRange n v = true ∨ belowRange n v = true)
    (inexact : Bool) : placeRounded n false inexact v = failed .range := by
  unfold placeRounded
  by_cases ha : aboveRange n v = true
  · rw [if_pos ha, if_neg (by decide)]
  · rw [if_neg ha, if_pos (h.resolve_left ha), if_neg (by decide)]

/-- With SAT = 1 a value above the range gives the upper bound. -/
theorem placeRounded_above {n : Nat} {v : Rounded} (h : aboveRange n v = true) (inexact : Bool) :
    placeRounded n true inexact v = done { sat := true, inexact := inexact } (container n (hi n)) := by
  unfold placeRounded
  rw [if_pos h, if_pos rfl]

/-- With SAT = 1 a value below the range gives the lower bound. -/
theorem placeRounded_below {n : Nat} {v : Rounded} (h : belowRange n v = true) (inexact : Bool) :
    placeRounded n true inexact v = done { sat := true, inexact := inexact } (container n (lo n)) := by
  have ha : aboveRange n v = false := by
    cases v with
    | negInf => rfl
    | posInf => cases h
    | int i =>
      simp only [aboveRange, belowRange, decide_eq_true_eq, decide_eq_false_iff_not] at *
      have := lo_neg n
      have := hi_nonneg n
      omega
  unfold placeRounded
  rw [ha, if_neg (by decide), if_pos h, if_pos rfl]

/-! ## The state a completion leaves -/

/-- `finish` in the terms claims are stated in. -/
theorem finish_eq_completedWith (c : Completion) (s : State) :
    finish c s = completedWith s (codeValue c.code) c.flags.sat c.flags.inexact c.res := by
  have hl : c.res.extractLsb' 0 32 = BitVec.ofNat 32 c.res.toNat := by
    apply BitVec.eq_of_toNat_eq
    simp [BitVec.extractLsb'_toNat]
  have hh : c.res.extractLsb' 32 32 = BitVec.ofNat 32 (c.res.toNat / 2 ^ 32) := by
    apply BitVec.eq_of_toNat_eq
    simp [BitVec.extractLsb'_toNat, Nat.shiftRight_eq_div_pow]
  unfold finish completedWith
  rw [statusWord_eq_ofNat, hl, hh]

end Sys2Proof.Machine
end

