-- ==== Sys2Proof/Laws/PerInstr.lean ====
section
/-! SUPPORT. Facts about every command as syntax, one lemma per constructor of Instr.

`EncodeShape`: the word of a well-formed command has OP in bits 31:28 and every reserved bit 0
(30_encoding.md R44 to R46, R50). -/

namespace Sys2Proof.Laws.EncodeShape

/-- The claim about one command. -/
def Statement (i : Instr) : Prop :=
  i.wf = true → Field.op (encode i) = i.op.code ∧ encode i &&& i.op.reserved = 0#32

/-- OP is `code` when the number has it in bits 31:28. -/
theorem op_eq_code {c : Word} {op : Op} (h : c.toNat / 2 ^ 28 = op.code.toNat) : Field.op c = op.code :=
  BitVec.eq_of_toNat_eq (by rw [Field.op_toNat, h])

theorem bitField_shape (op : Op) (hr : op.reserved = 0x0FFFFC00#32) {pos bits : Nat}
    (hw : Instr.bitFieldFits pos bits = true) :
    Field.op (encodeBF op pos bits) = op.code ∧ encodeBF op pos bits &&& op.reserved = 0#32 := by
  have hc := op.code.isLt
  simp only [Instr.bitFieldFits, Bool.and_eq_true, decide_eq_true_eq] at hw
  refine ⟨op_eq_code ?_, ?_⟩
  · simp only [encodeBF, BitVec.toNat_ofNat]
    omega
  · rw [hr, reserved_bf_iff]
    simp only [encodeBF, BitVec.toNat_ofNat]
    omega

theorem endian_shape (op : Op) (hr : op.reserved = 0x0FFFFFFC#32) (size : Size) :
    Field.op (encodeES op size) = op.code ∧ encodeES op size &&& op.reserved = 0#32 := by
  have hc := op.code.isLt
  have hs := size.code.isLt
  refine ⟨op_eq_code ?_, ?_⟩
  · simp only [encodeES, BitVec.toNat_ofNat]
    omega
  · rw [hr, reserved_es_iff]
    simp only [encodeES, BitVec.toNat_ofNat]
    omega

theorem bfx (pos bits : Nat) : Statement (.bfx pos bits) := fun h => bitField_shape .bfx rfl h

theorem bfd (pos bits : Nat) : Statement (.bfd pos bits) := fun h => bitField_shape .bfd rfl h

theorem tobe (size : Size) : Statement (.tobe size) := fun _ => endian_shape .tobe rfl size

theorem frombe (size : Size) : Statement (.frombe size) := fun _ => endian_shape .frombe rfl size

theorem toint (n r : Nat) (sat : Bool) : Statement (.toint n r sat) := by
  intro h
  have hs := Bool.toNat_lt sat
  simp only [Instr.wf, Instr.fixedPointFits, Bool.and_eq_true, decide_eq_true_eq] at h
  refine ⟨op_eq_code ?_, (reserved_toint_iff _).2 ?_⟩
  · simp only [encode, encodeFX, Instr.op, Op.code, BitVec.toNat_ofNat]
    omega
  · simp only [encode, encodeFX, Op.code, BitVec.toNat_ofNat]
    omega

theorem tofp (n r : Nat) : Statement (.tofp n r) := by
  intro h
  simp only [Instr.wf, Instr.fixedPointFits, Bool.and_eq_true, decide_eq_true_eq] at h
  refine ⟨op_eq_code ?_, (reserved_tofp_iff _).2 ?_⟩
  · simp only [encode, encodeFX, Instr.op, Op.code, BitVec.toNat_ofNat, Bool.toNat_false]
    omega
  · simp only [encode, encodeFX, Op.code, BitVec.toNat_ofNat, Bool.toNat_false]
    omega

end Sys2Proof.Laws.EncodeShape
end

