-- ==== Sys2Proof/Tests/Slice0.lean ====
section
/-! SUPPORT. The model's own tests: the well-formedness smoke test, one word per command written out from the
encoding tables of 30_encoding.md, worked vectors of 95_test_vectors.md (the id stands in each test's comment), and
a witness for the hypotheses of every statement that has some. -/

namespace Sys2Proof.Tests

open Sys2Proof.Machine

/-! ## Helpers -/

/-- Register values left by reset, with the operands given. -/
def withOperands (a : DWord) (b : Word) : Regs :=
  { Regs.reset with opaLo := a.setWidth 32, opaHi := (a >>> 32).setWidth 32, opb := b }

/-- A machine at BASE = 0x40 with the given parameters, operands and pending inputs. -/
def machine (hostBe : Bool) (tie : Tie) (a : DWord) (b : Word) (pending : List Input) : State :=
  { regs := withOperands a b, params := { hostBe := hostBe, fxTie := tie, base := 0x40 }, pending := pending,
    responses := [] }

/-- A little-endian host and FX_TIE = AWAY, nothing pending. -/
def plain (a : DWord) (b : Word) : State := machine false .away a b []

/-- The next state, if there is one. -/
def after (o : Host.Outcome State Fault Refusal) : Option State :=
  match o with
  | .next s => some s
  | .fault _ => none
  | .refused _ => none

/-- RES and STATUS after an outcome. -/
def shown (o : Host.Outcome State Fault Refusal) : Option (DWord × Word) :=
  (after o).map fun s => (s.result, s.regs.status)

/-! ## WellFormed: an ill-formed term for each check -/

theorem test_wf_refuses_pos_32 : (Instr.bfx 32 1).wf = false := by decide
theorem test_wf_refuses_bits_0 : (Instr.bfd 5 0).wf = false := by decide
theorem test_wf_refuses_bits_33 : (Instr.bfd 31 33).wf = false := by decide
theorem test_wf_refuses_n_0 : (Instr.toint 0 7 false).wf = false := by decide
theorem test_wf_refuses_n_65 : (Instr.tofp 65 7).wf = false := by decide
theorem test_wf_refuses_r_64 : (Instr.toint 16 64 true).wf = false := by decide
theorem test_assembler_refuses_wide_field : (Instr.bfx 3 5).assembles = false ∧ (Instr.bfx 3 5).wf = true := by decide
theorem test_wf_accepts : (Instr.bfx 31 32).wf = true ∧ (Instr.toint 64 63 true).wf = true := by decide

/-! ## Decoding: a word of each command from the format tables (R44 to R48), and the rejections -/

theorem test_decode_bfx : decode 0b0001_000000000000000000_00011_11111#32 = .command (.bfx 31 4) := by decide
theorem test_decode_bfd : decode 0b0010_000000000000000000_01111_10111#32 = .command (.bfd 23 16) := by decide
theorem test_decode_tobe : decode 0b0011_00000000000000000000000000_11#32 = .command (.tobe .eight) := by decide
theorem test_decode_frombe : decode 0b0100_00000000000000000000000000_01#32 = .command (.frombe .two) := by decide
theorem test_decode_toint : decode 0b0101_000000000000000_1_000111_001111#32 = .command (.toint 16 7 true) := by decide
theorem test_decode_tofp : decode 0b0110_0000000000000000_010100_111111#32 = .command (.tofp 64 20) := by decide
theorem test_decode_illegal : decode 0x0000053F#32 = .illegalOpcode ∧ decode 0x70000000#32 = .illegalOpcode ∧
    decode 0xFFFFFFFF#32 = .illegalOpcode := by decide
theorem test_decode_reserved : decode 0x100007FF#32 = .reservedField ∧ decode 0x30000006#32 = .reservedField ∧
    decode 0x500021CF#32 = .reservedField ∧ decode 0x600011CF#32 = .reservedField := by decide
theorem test_table_word : decodeTableWord 32 0x50001FFF = some (.toint 64 63 true) ∧
    decodeTableWord 32 0x00000000 = none := by decide
theorem test_encode_worked : encode (.toint 64 20 false) = 0x5000053F#32 ∧ encode (.tofp 32 22) = 0x6000059F#32 ∧
    encode (.bfd 29 1) = 0x2000001D#32 := by decide

/-! ## Commands (95_test_vectors.md §2) -/

/-- BF-1: the packet-type nibble of wire 40 00 00 03. -/
theorem test_bfx_nibble : shown (exec (.bfx 31 4) (plain 0x03000040#64 0#32)) = some (0x4#64, 0x1#32) := by decide

/-- BF-10: Bits > Pos + 1. -/
theorem test_bfx_bad_field : shown (exec (.bfx 3 5) (plain 0x78563412#64 0#32)) = some (0#64, 0x4#32) := by decide

/-- BF-16: B is masked to the field. -/
theorem test_bfd_masks_value : shown (exec (.bfd 7 4) (plain 0#64 0xFF#32)) = some (0xF0000000#64, 0x1#32) := by decide

/-- BF-14: a big-endian host. -/
theorem test_bfd_big_endian_host :
    shown (exec (.bfd 29 1) (machine true .away 0#64 1#32 [])) = some (0x20000000#64, 0x1#32) := by decide

/-- ES-7. -/
theorem test_tobe_eight :
    shown (exec (.tobe .eight) (plain 0x0102030405060708#64 0#32)) = some (0x0807060504030201#64, 0x1#32) := by decide

/-- ES-3: identity on a big-endian host. -/
theorem test_tobe_big_endian_host :
    shown (exec (.tobe .two) (machine true .away 0x1234#64 0#32 [])) = some (0x1234#64, 0x1#32) := by decide

/-- ES-11: the upper bits of A are ignored. -/
theorem test_frombe_ignores_upper :
    shown (exec (.frombe .two) (plain 0xFFFF0000000080FF#64 0#32)) = some (0xFF80#64, 0x1#32) := by decide

/-- FX-24: a tie at −128.5, even. -/
theorem test_toint_tie_even :
    shown (exec (.toint 8 0 false) (machine false .even 0xC060100000000000#64 0#32 [])) =
      some (0x80#64, 0x201#32) := by decide

/-- FX-28: saturated and inexact. -/
theorem test_toint_saturates :
    shown (exec (.toint 16 7 true) (plain 0x4072C1999999999A#64 0#32)) = some (0x7FFF#64, 0x301#32) := by decide

/-- FP-19: −(2^53 + 1) as a 55-bit raw value, a tie to even. -/
theorem test_tofp_tie_even :
    shown (exec (.tofp 55 0) (plain 0x005FFFFFFFFFFFFF#64 0#32)) = some (0xC340000000000000#64, 0x201#32) := by
  decide

/-- FP-7: a zero-extended 12-bit field takes its sign from bit 11. -/
theorem test_tofp_sign : shown (exec (.tofp 12 4) (plain 0xFF0#64 0#32)) = some (0xBFF0000000000000#64, 0x1#32) := by
  decide

/-! ## Accesses and reset (95_test_vectors.md §2.6, §2.7) -/

/-- The write of one register by offset. -/
def writeAt (off : Fin 32) (v : Word) : Input := .access (.write off 4 v)

/-- BUS-3: a 2-byte write changes nothing. -/
theorem test_short_write_is_error :
    after (step (machine false .away 0#64 0#32 [.access (.write 0x08 2 0xFFFF#32)])) =
      some { machine false .away 0#64 0#32 [] with responses := [{ code := .error, data := none }] } := by decide

/-- BUS-5: a misaligned read returns 0. -/
theorem test_misaligned_read_is_error :
    (after (step (machine false .away 7#64 0#32 [.access (.read 0x06 4)]))).map (·.responses) =
      some [{ code := .error, data := some 0#32 }] := by decide

/-- BUS-9: writing `tobe 4` to CMD. -/
theorem test_cmd_write_executes :
    (after (step (machine false .away 0x12345678#64 0#32 [writeAt 0 0x30000002#32]))).map (·.regs) =
      some { withOperands 0x12345678#64 0#32 with cmd := 0x30000002#32, status := 1#32, resLo := 0x78563412#32 } := by
  decide

/-- BF-12: a reserved bit beats BAD_FIELD. -/
theorem test_reserved_beats_bad_field :
    shown (step (machine false .away 0x78563412#64 0#32 [writeAt 0 0x18000083#32])) = some (0#64, 0x3#32) := by decide

/-- RST-1. -/
theorem test_reset_step :
    (after (step (machine true .even 9#64 3#32 [.reset]))).map (·.regs) = some Regs.reset := by decide

/-- RST-4: the first command after reset reads A = +0.0. -/
theorem test_first_command_after_reset :
    shown (step (State.reset.withFetchWord 32 0x500001CF)) = some (0#64, 0x1#32) := by decide +kernel

/-! ## Host byte order (20_memory.md R33) -/

theorem test_host_load :
    hostLoad false [0x12#8, 0x34#8, 0x56#8, 0x78#8] = 0x78563412#64 ∧
    hostLoad true [0x12#8, 0x34#8, 0x56#8, 0x78#8] = 0x12345678#64 := by decide

theorem test_host_store :
    hostStore false 4 0x78563412#64 = [0x12#8, 0x34#8, 0x56#8, 0x78#8] ∧
    hostStore true 2 0x1234#64 = [0x12#8, 0x34#8] := by decide

/-! ## Witnesses: states and operands that meet the hypotheses of each statement -/

/-- A state whose first pending input writes `c` to CMD, on a little-endian host. -/
def writing (c : Word) (a : DWord) : State := machine false .away a 0#32 [cmdWrite c]

theorem witness_DecodeEncodeRoundTrip :
    (Instr.bfx 0 1).wf = true ∧ (Instr.bfx 31 32).wf = true ∧ (Instr.bfd 0 32).wf = true ∧
    (Instr.tobe .one).wf = true ∧ (Instr.frombe .eight).wf = true ∧ (Instr.toint 1 0 false).wf = true ∧
    (Instr.toint 64 63 true).wf = true ∧ (Instr.tofp 64 63).wf = true := by decide

theorem witness_EncodeDecodeRoundTrip :
    decode 0x100003FF#32 = .command (.bfx 31 32) ∧ decode 0x20000020#32 = .command (.bfd 0 2) ∧
    decode 0x50001FFF#32 = .command (.toint 64 63 true) := by decide

theorem witness_StepRunsDecodedCommand :
    (writing 0x30000002#32 5#64).pending = cmdWrite 0x30000002#32 :: [] ∧
    decode 0x30000002#32 = .command (.tobe .four) := by decide

theorem witness_FetchWordRunsNext :
    0x60000FFF < 2 ^ 32 ∧ decode (BitVec.ofNat 32 0x60000FFF) = .command (.tofp 64 63) := by decide

theorem witness_IllegalOpcodeCompletes :
    (writing 0x0000053F#32 0#64).pending = cmdWrite 0x0000053F#32 :: [] ∧
    (0x0000053F#32).toNat / 2 ^ 28 = 0 ∧ 7 ≤ (0x70000000#32).toNat / 2 ^ 28 ∧
    7 ≤ (0xFFFFFFFF#32).toNat / 2 ^ 28 := by decide

theorem witness_ReservedFieldCompletes :
    (writing 0x18000083#32 0#64).pending = cmdWrite 0x18000083#32 :: [] ∧
    ((0x18000083#32).toNat / 2 ^ 28 = 1 ∧ 0x18000083#32 &&& 0x0FFFFC00#32 ≠ 0#32) ∧
    ((0x20000400#32).toNat / 2 ^ 28 = 2 ∧ 0x20000400#32 &&& 0x0FFFFC00#32 ≠ 0#32) ∧
    ((0x30000004#32).toNat / 2 ^ 28 = 3 ∧ 0x30000004#32 &&& 0x0FFFFFFC#32 ≠ 0#32) ∧
    ((0x48000000#32).toNat / 2 ^ 28 = 4 ∧ 0x48000000#32 &&& 0x0FFFFFFC#32 ≠ 0#32) ∧
    ((0x50002000#32).toNat / 2 ^ 28 = 5 ∧ 0x50002000#32 &&& 0x0FFFE000#32 ≠ 0#32) ∧
    ((0x60001000#32).toNat / 2 ^ 28 = 6 ∧ 0x60001000#32 &&& 0x0FFFF000#32 ≠ 0#32) := by decide

theorem witness_CommandFrame : ∃ t, exec (.bfd 7 4) (plain 0#64 0xFF#32) = .next t := ⟨_, rfl⟩

/-- 2^63 is out of range for (64, 0), under either tie rule. -/
theorem two_pow_63_outOfRange (tie : Tie) : OutOfRange tie 64 0 0x43E0000000000000#64 := by
  refine .inr ⟨2 ^ 52, 11, 2 ^ 63, by decide, .inl ?_, ?_⟩
  · norm_num [dyadic]
  · norm_num [InRange]

/-- +0.0 is in range of every (N, R). -/
theorem zero_not_outOfRange (tie : Tie) (n r : Nat) : ¬ OutOfRange tie n r 0#64 := by
  have hz : f64Value 0#64 = .finite 0 (-1074) := by decide
  rintro (⟨neg, h⟩ | ⟨sig, exp, i, h, hr, hi⟩)
  · rw [hz] at h
    cases h
  · rw [hz] at h
    cases h
    have h2 : |(i : ℚ)| ≤ 1 / 2 := by
      rcases hr with h | ⟨h, -⟩
      · simpa [dyadic] using h.le
      · simpa [dyadic] using h.le
    have h3 : |i| < 1 := by
      have : ((|i| : Int) : ℚ) < 1 := by
        push_cast
        linarith
      exact_mod_cast this
    have h0 : i = 0 := Int.abs_lt_one_iff.1 h3
    subst h0
    have : (1 : Int) ≤ 2 ^ (n - 1) := by exact_mod_cast Nat.one_le_two_pow
    exact hi ⟨by omega, by omega⟩

theorem witness_FirstErrorIsReported :
    (∃ t, step (writing 0x5000003F#32 0x43E0000000000000#64) = .next t) ∧
    decode 0x00000000#32 = .illegalOpcode ∧ decode 0x18000083#32 = .reservedField ∧
    decode 0x10000020#32 = .command (.bfx 0 2) ∧ decode 0x10000000#32 = .command (.bfx 0 1) ∧
    f64Value 0x7FF8000000000000#64 = .nan ∧
    (f64Value 0x43E0000000000000#64 ≠ .nan ∧ OutOfRange .away 64 0 0x43E0000000000000#64) ∧
    ¬ OutOfRange .even 16 7 0#64 :=
  ⟨⟨_, rfl⟩, by decide, by decide, by decide, by decide, by decide, ⟨by decide, two_pow_63_outOfRange .away⟩,
    zero_not_outOfRange .even 16 7⟩

theorem witness_RepeatedCmdWriteIsIdempotent :
    ∃ t, step (machine false .away 5#64 0#32 [cmdWrite 0x30000002#32, cmdWrite 0x30000002#32]) = .next t := ⟨_, rfl⟩

/-- Another BASE, another earlier result, another response record: the same inputs. -/
theorem witness_ResultDependsOnInputsOnly :
    let s := machine true .even 7#64 9#32 []
    let t : State := { s with
      params := { s.params with base := 0x100 }, responses := [readError],
      regs := { s.regs with resLo := 3#32, status := 0x301#32 } }
    s.params.hostBe = t.params.hostBe ∧ s.params.fxTie = t.params.fxTie ∧ s.operandA = t.operandA ∧
    s.operandB = t.operandB ∧ (∃ u, execute 0x5000053F#32 s = .next u) ∧ ∃ u, execute 0x5000053F#32 t = .next u :=
  ⟨rfl, rfl, rfl, rfl, ⟨_, rfl⟩, ⟨_, rfl⟩⟩

/-- One pair of states for each command, unlike in bits it does not read. -/
theorem witness_UnreadBitsDoNotMatter :
    SameReads (.bfx 31 32) (plain 0xDEADBEEF78563412#64 1#32) (plain 0x78563412#64 2#32) ∧
    SameReads (.bfd 7 4) (plain 5#64 0xFF#32) (plain 5#64 0x0F#32) ∧
    SameReads (.tobe .one) (plain 0xAABBCCDD#64 0#32) (plain 0xDD#64 0#32) ∧
    SameReads (.frombe .four) (plain 0xFFFFFFFF12345678#64 0#32) (plain 0x12345678#64 0#32) ∧
    SameReads (.toint 16 7 false) (machine true .away 5#64 0#32 []) (machine false .away 5#64 1#32 []) ∧
    SameReads (.tofp 12 4) (machine true .away 0xFFFFFFFFFFFFAFF0#64 0#32 []) (machine false .even 0xFF0#64 0#32 []) := by
  unfold SameReads
  decide

theorem witness_LegalReadReturnsRegister :
    let s : State := { plain 7#64 9#32 with pending := [.access (.read 0x18 4)] }
    s.pending = .access (.read 0x18 4) :: [] ∧ (0x18 : Fin 32).val = 0x18 ∧ s.regs.resHi = 0#32 ∧
    (0x00 : Fin 32).val = 0x00 ∧ (0x04 : Fin 32).val = 0x04 ∧ (0x08 : Fin 32).val = 0x08 ∧
    (0x0C : Fin 32).val = 0x0C ∧ (0x10 : Fin 32).val = 0x10 ∧ (0x14 : Fin 32).val = 0x14 := by decide

theorem witness_IllegalAccessIsBusError :
    ({ plain 7#64 9#32 with pending := [.access (.read 0x1C 4)] } : State).pending =
      .access (.read 0x1C 4) :: [] ∧ (0x1C : Fin 32).val = 0x1C ∧ (0x1F : Fin 32).val % 4 ≠ 0 ∧
    ({ plain 7#64 9#32 with pending := [.access (.write 0x04 4 5#32)] } : State).pending =
      .access (.write 0x04 4 5#32) :: [] ∧ (0x14 : Fin 32).val = 0x14 ∧ (0x18 : Fin 32).val = 0x18 ∧ 2 ≠ 4 := by
  decide

theorem witness_LegalWriteStores :
    (machine false .away 0#64 0#32 [writeAt 0x08 1#32]).pending = .access (.write 0x08 4 1#32) :: [] ∧
    (machine false .away 0#64 0#32 [writeAt 0x0C 1#32]).pending = .access (.write 0x0C 4 1#32) :: [] ∧
    (machine false .away 0#64 0#32 [writeAt 0x10 1#32]).pending = .access (.write 0x10 4 1#32) :: [] ∧
    (machine false .away 0#64 0#32 [writeAt 0x00 1#32]).pending = .access (.write 0x00 4 1#32) :: [] := by decide

theorem witness_EveryAccessGetsOneResponse :
    (machine false .away 0#64 0#32 [.access (.read 0x1F 8)]).pending = .access (.read 0x1F 8) :: [] := by decide

theorem witness_WindowDecoding :
    (0x40 : Nat) = (plain 0#64 0#32).params.base + (0x00 : Fin 32).val ∧
    (0x5F : Nat) = (plain 0#64 0#32).params.base + (0x1F : Fin 32).val ∧
    0x3F < (plain 0#64 0#32).params.base ∧ (plain 0#64 0#32).params.base + 32 ≤ 0x60 := by decide

/-- Two instances in neighbouring windows. -/
def neighbours : Platform :=
  [plain 1#64 0#32, { plain 2#64 0#32 with params := { hostBe := true, fxTie := .away, base := 0x60 } }]

theorem witness_InstancesAreIndependent :
    (∃ q, neighbours.stepAt 1 = .next q) ∧ Platform.wf neighbours ∧ (1 : Nat) ≠ 0 ∧
    (neighbours.deliver 0x60 (.read 4))[1]? ≠ neighbours[1]? := by
  refine ⟨⟨_, rfl⟩, ?_, by decide, by decide⟩
  constructor <;> decide

theorem witness_ResetStepClearsRegisters :
    (machine true .even 9#64 3#32 [.reset]).pending = .reset :: [] := by decide

/-- A reset, a CMD write, an operand write from CODE = NONE, and a reset from CODE = OK. -/
theorem witness_NoneMeansNoCommandSinceReset :
    let fresh := machine true .even 9#64 3#32 [writeAt 0x08 1#32]
    let completed : State := { machine true .even 9#64 3#32 [.reset] with
      regs := { withOperands 9#64 3#32 with cmd := 0x30000000#32, status := 0x1#32, resLo := 9#32 } }
    (∃ t, step (writing 0x00000000#32 0#64) = .next t) ∧
    codeField fresh.regs.status = 0#4 ∧ fresh.result = 0#64 ∧ (∃ t, step fresh = .next t) ∧
    fresh.pending.head? = some (.access (.write 0x08 4 1#32)) ∧
    codeField completed.regs.status ≠ 0#4 ∧ completed.pending.head? = some .reset ∧
    ∃ t, step completed = .next t ∧ codeField t.regs.status = 0#4 :=
  ⟨⟨_, rfl⟩, by decide, by decide, ⟨_, rfl⟩, rfl, by decide, rfl, ⟨_, rfl, by decide⟩⟩

theorem witness_NothingPendingChangesNothing : (plain 1#64 2#32).pending = [] := by decide

theorem witness_ParametersNeverChange : ∃ t, step (machine true .even 9#64 3#32 [.reset]) = .next t := ⟨_, rfl⟩

theorem witness_OnlyTheseInputsChangeRegisters :
    ∃ t, step (machine false .away 0#64 0#32 [writeAt 0x08 7#32]) = .next t ∧
      t.regs.opaLo ≠ (machine false .away 0#64 0#32 [writeAt 0x08 7#32]).regs.opaLo := ⟨_, rfl, by decide⟩

theorem witness_StatusStaysLegal :
    StatusLegal (writing 0x5000003F#32 0x43E0000000000000#64) ∧
    ∃ t, step (writing 0x5000003F#32 0x43E0000000000000#64) = .next t :=
  ⟨by unfold StatusLegal; decide, ⟨_, rfl⟩⟩

theorem witness_StatusAndResultAreLastCommands :
    ShowsLastCommand (writing 0x5000003F#32 0x43E0000000000000#64) ∧
    ∃ t, step (writing 0x5000003F#32 0x43E0000000000000#64) = .next t :=
  ⟨.inl ⟨rfl, rfl, by decide⟩, ⟨_, rfl⟩⟩

theorem witness_CodesStandBesideTheirCommands :
    CodeFitsCommand (writing 0x5000003F#32 0x43E0000000000000#64) ∧
    ∃ t, step (writing 0x5000003F#32 0x43E0000000000000#64) = .next t := by
  refine ⟨⟨?_, ?_, ?_, ?_, ?_, ?_, ?_⟩, ⟨_, rfl⟩⟩ <;> intro h <;> exact absurd h (by decide)

/-- The lowest and the highest one-bit field, and the whole word. -/
theorem witness_BfxExtractsField :
    (0 ≤ 31 ∧ 1 ≤ 1 ∧ 1 ≤ 0 + 1) ∧ (31 ≤ 31 ∧ 1 ≤ 1 ∧ 1 ≤ 31 + 1) ∧ 31 ≤ 31 ∧ 1 ≤ 32 ∧ 32 ≤ 31 + 1 := by decide

theorem witness_BfdDepositsField :
    ((7 : Nat) ≤ 31 ∧ 1 ≤ 4 ∧ 4 ≤ 7 + 1) ∧ (7 + 1 - 4 ≤ 4 ∧ 4 ≤ 7) ∧ ¬ (7 + 1 - 4 ≤ 3 ∧ 3 ≤ 7) ∧
    ¬ (7 + 1 - 4 ≤ 8 ∧ 8 ≤ 7) := by decide

theorem witness_BadFieldCompletes : (2 : Nat) > 0 + 1 ∧ 32 > 30 + 1 := by decide

theorem witness_OneBitFieldIsFlag : (0 : Nat) ≤ 31 ∧ 31 ≤ 31 := by decide

/-- Touching fields 7:4 and 3:0, in either order. -/
theorem witness_BitFieldLaws :
    ((7 : Nat) ≤ 31 ∧ 1 ≤ 4 ∧ 4 ≤ 7 + 1) ∧ ((3 : Nat) ≤ 31 ∧ 1 ≤ 4 ∧ 4 ≤ 3 + 1) ∧ 3 < 7 + 1 - 4 := by decide

theorem witness_NativeLoadUndoesStore :
    Memory.wf [(1, 0x12#8), (5, 0x34#8)] ∧ (3 : Nat) < 4 ∧ 4 + Size.two.bytes ≤ 6 := by
  refine ⟨⟨?_, ?_⟩, by decide, by decide⟩ <;> decide

/-- Wire bytes 12 34 56 78 at address 4, loaded by a little-endian host. -/
theorem witness_WireBytesAreHostIndependent :
    let m : Memory := [(4, 0x12#8), (5, 0x34#8), (6, 0x56#8), (7, 0x78#8)]
    Memory.wf m ∧ (plain 0x78563412#64 0#32).operandA = Memory.nativeLoad false Size.four.bytes m 4 := by
  refine ⟨⟨?_, ?_⟩, ?_⟩ <;> decide

theorem witness_Binary64Values :
    (2047#11).toNat = 2047 ∧ 1#52 ≠ 0#52 ∧ (0#11).toNat = 0 ∧ (1#11).toNat ≠ 0 ∧ (1#11).toNat ≠ 2047 ∧
    (2046#11).toNat ≠ 2047 := by decide

/-- The only value tied at 5/2 each way: 3 away from zero, 2 even. -/
theorem five_halves_rounds : RoundsTo .away (5 / 2) 3 ∧ RoundsTo .even (5 / 2) 2 := by
  constructor <;> refine .inr ⟨?_, ?_⟩ <;> norm_num [abs_of_neg, abs_of_pos]

theorem witness_RoundTieIsNearest : RoundsTo .away (Scaled.toRat { num := 5, den := 1 }) 3 := by
  have h : Scaled.toRat { num := 5, den := 1 } = 5 / 2 := by norm_num [Scaled.toRat]
  rw [h]
  exact five_halves_rounds.1

/-- The bounds of the narrowest and of the widest value. -/
theorem witness_ContainerHoldsValue :
    InRange 1 (-1) ∧ InRange 1 0 ∧ InRange 9 255 ∧ InRange 64 (-(2 ^ 63)) ∧ InRange 64 (2 ^ 63 - 1) := by
  unfold InRange
  decide

/-- 2.5 for (8, 0) with FX_TIE = EVEN. -/
theorem witness_TointConvertsInRange :
    let s := machine false .even 0x4004000000000000#64 0#32 []
    f64Value s.operandA = .finite (5 * 2 ^ 50) (-51) ∧
    RoundsTo s.params.fxTie (dyadic (5 * 2 ^ 50) (-51) * 2 ^ 0) 2 ∧ InRange 8 2 := by
  have h : dyadic (5 * 2 ^ 50) (-51) * 2 ^ 0 = 5 / 2 := by norm_num [dyadic]
  refine ⟨by decide, ?_, by unfold InRange; decide⟩
  rw [h]
  exact five_halves_rounds.2

theorem witness_TointRejectsOutOfRange :
    OutOfRange .away 64 0 (plain 0x43E0000000000000#64 0#32).operandA ∧
    OutOfRange .even 16 7 (plain 0xFFF0000000000000#64 0#32).operandA :=
  ⟨two_pow_63_outOfRange .away, .inl ⟨true, by decide⟩⟩

/-- 2^63 and −2^64 for (64, 0). -/
theorem witness_TointSaturatesFinite :
    (f64Value (plain 0x43E0000000000000#64 0#32).operandA = .finite (2 ^ 52) 11 ∧
      RoundsTo .away (dyadic (2 ^ 52) 11 * 2 ^ 0) (2 ^ 63) ∧ ¬ InRange 64 (2 ^ 63)) ∧
    (f64Value (plain 0xC3F0000000000000#64 0#32).operandA = .finite (-(2 ^ 52)) 12 ∧
      RoundsTo .away (dyadic (-(2 ^ 52)) 12 * 2 ^ 0) (-(2 ^ 64)) ∧ ¬ InRange 64 (-(2 ^ 64))) := by
  refine ⟨⟨by decide, .inl ?_, ?_⟩, ⟨by decide, .inl ?_, ?_⟩⟩ <;> norm_num [dyadic, InRange]

theorem witness_TointSaturatesInfinity :
    f64Value (plain 0x7FF0000000000000#64 0#32).operandA = .inf false ∧
    f64Value (plain 0xFFF0000000000000#64 0#32).operandA = .inf true := by decide

theorem witness_TointRejectsNaN : f64Value (plain 0xFFF0000000000001#64 0#32).operandA = .nan := by decide

theorem witness_RneF64IsNearestEven :
    |(2 : Int) ^ 63| ≤ 2 ^ 63 ∧ |-(2 : Int) ^ 53| ≤ 2 ^ 53 ∧ FitsSignificand (2 ^ 63) ∧ FitsSignificand (2 ^ 53 - 1) :=
  ⟨by norm_num, by norm_num, ⟨1, 63, by norm_num, by norm_num⟩, ⟨2 ^ 53 - 1, 0, by norm_num, by norm_num⟩⟩

/-- Raw −1 in 16 bits with other bits above, raw 0, and lo(64). -/
theorem witness_TofpConverts :
    IsRaw 16 (plain 0xABCDFFFF#64 0#32).operandA (-1) ∧ IsRaw 16 (plain 0xABCD0000#64 0#32).operandA 0 ∧
    IsRaw 64 (plain 0x8000000000000000#64 0#32).operandA (-(2 ^ 63)) := by
  unfold IsRaw InRange
  decide

/-- 1.0 for (64, 20), and 2^60 for (64, 0), whose raw value is beyond 2^53. -/
theorem witness_FloatRawFloatQuantization :
    (f64Value 0x3FF0000000000000#64 = .finite (2 ^ 52) (-52) ∧
      (toint .away 64 20 false 0x3FF0000000000000#64).code = .ok) ∧
    f64Value 0x43B0000000000000#64 = .finite (2 ^ 52) 8 ∧
    (toint .away 64 0 false 0x43B0000000000000#64).code = .ok ∧
    (2 : Int) ^ 53 < |rawValue 64 (toint .away 64 0 false 0x43B0000000000000#64).res| := by
  refine ⟨⟨by decide, by decide⟩, by decide, by decide, ?_⟩
  have h : rawValue 64 (toint .away 64 0 false 0x43B0000000000000#64).res = 2 ^ 60 := by decide
  rw [h]
  norm_num

theorem witness_RawFloatRawRoundTrip :
    IsRaw 64 0x0020000000000000#64 (2 ^ 53) ∧ |(2 : Int) ^ 53| ≤ 2 ^ 53 :=
  ⟨by unfold IsRaw InRange; decide, by norm_num⟩

/-- A host beside a block, at the first line of its script. -/
def system (vars : List (Var × HostValue)) : System := { block := plain 0#64 0#32, vars := vars, mem := [], line := 0 }

theorem witness_HostLinesActOnBlock :
    (system []).block.pending = [] ∧
    evalCommand (system [(0, .word 64#32)]).vars (.toint (.var 0) (.const 63#32) true) = some (.toint 64 63 true) := by
  decide

/-- A legal write to OPB, the highest writable offset, and an illegal one to the reserved offset. -/
theorem witness_HostBranchesOnResponse :
    (system []).block.pending = [] ∧ evalExpr (system []).vars (.const 5#32) = some (.word 5#32) ∧
    (Access.write 0x10 4 5#32).legal = true ∧ (Access.write 0x1C 4 5#32).legal = false := by decide

/-! ## Host scripts (95_test_vectors.md §3) -/

/-- `if r1 == r2` on two ERROR responses, and `if r == ERROR` on an OK one. -/
theorem test_line_compares_responses :
    runLine (.ifGoto (.eq (.var 1) (.var 2)) 7) (system [(1, .response .error), (2, .response .error)]) =
      .running { system [(1, .response .error), (2, .response .error)] with line := 7 } ∧
    runLine (.ifGoto (.eq (.var 1) (.response .error)) 7) (system [(1, .response .ok)]) =
      .running { system [(1, .response .ok)] with line := 1 } := by decide

/-- A line of program P2: `p <- T[i]` of the table [29, 1]. -/
theorem test_line_table_index :
    runLine (.assign 2 (.index [29#32, 1#32] (.var 0))) (system [(0, .word 1#32)]) =
      .running { system [(2, .word 1#32), (0, .word 1#32)] with line := 1 } := by decide

/-- A line of program P6: the 2-byte write is answered ERROR. -/
theorem test_line_bus_error :
    runLine (.accWrite 0x08 2 (.const 0xFFFF#32) 3) (system []) =
      .running { system [(3, .response .error)] with
        block := { plain 0#64 0#32 with responses := [writeError] }, line := 1 } := by decide

end Sys2Proof.Tests
end

/-! Proofs about the state (10_state.md): what a step does to the registers, what a completed command leaves, and
from these the frame, the invariants of STATUS and RES, and what a result depends on. -/

namespace Sys2Proof.Machine

/-! ## What one step does to the registers

`step_cases` says everything a step can do. `StepEffect` keeps of it what the invariants ask: which input came first,
and what it left in the parameters and the registers. -/

/-- The effect of one step on the block, with the input that had it. -/
inductive StepEffect (s t : State) : Prop
  /-- nothing pending, a read, or an access answered with ERROR -/
  | unchanged (params : t.params = s.params) (regs : t.regs = s.regs)
  /-- the reset step (R92) -/
  | reset (input : s.pending.head? = some .reset) (params : t.params = s.params) (regs : t.regs = Regs.reset)
  /-- a legal write to OPA_LO, OPA_HI or OPB (R31) -/
  | operandWrite (x : Reg) (v : Word) (operand : x = .opaLo ∨ x = .opaHi ∨ x = .opb)
      (input : s.pending.head? = some (.access (.write x.offset 4 v))) (params : t.params = s.params)
      (regs : t.regs = s.regs.set x v)
  /-- a legal write to CMD, which runs the word (R17, R31) -/
  | command (v : Word) (rest : List Input) (input : s.pending = cmdWrite v :: rest)
      (next : t = finish (completionOfWord v (cmdWritten s v rest)) (cmdWritten s v rest))

/-- A read only adds a response to the record (R30). -/
theorem performRead_eq_respond (off : Fin 32) (width : Nat) (s : State) :
    ∃ r, performRead off width s = s.respond r := by
  unfold performRead
  split
  · exact ⟨_, rfl⟩
  · exact ⟨_, rfl⟩

theorem Reg.writable_iff (x : Reg) : x.writable = true ↔ x = .cmd ∨ x = .opaLo ∨ x = .opaHi ∨ x = .opb := by
  cases x <;> decide

/-- Every step has one of the four effects. -/
theorem stepEffect_of_step {s t : State} (h : step s = .next t) : StepEffect s t := by
  rcases step_cases s with ⟨-, hs⟩ | ⟨rest, hp, hs⟩ | ⟨off, width, rest, hp, hs⟩ | ⟨off, width, v, rest, hp, ht, hs⟩ |
    ⟨off, width, v, rest, x, hp, ht, hx, hs⟩ | ⟨off, width, v, rest, hp, ht, hs⟩
  · cases hs.symm.trans h
    exact .unchanged rfl rfl
  · cases hs.symm.trans h
    exact .reset (by rw [hp]; rfl) rfl rfl
  · cases hs.symm.trans h
    obtain ⟨r, hr⟩ := performRead_eq_respond off width { s with pending := rest }
    exact .unchanged (by rw [hr]; rfl) (by rw [hr]; rfl)
  · cases hs.symm.trans h
    exact .unchanged rfl rfl
  · cases hs.symm.trans h
    obtain ⟨rfl, rfl, hw⟩ := (writeTarget_eq_some_iff off width x).1 ht
    exact .operandWrite x v (((Reg.writable_iff x).1 hw).resolve_left hx) (by rw [hp]; rfl) rfl rfl
  · obtain ⟨rfl, rfl, -⟩ := (writeTarget_eq_some_iff off width .cmd).1 ht
    rw [execute_eq] at hs
    cases hs.symm.trans h
    exact .command v rest hp rfl

theorem step_of_pending_nil {s : State} (h : s.pending = []) : step s = .next s := by
  unfold step takePending
  rw [h]

/-- What CMD, STATUS and RES are after a step: as before, all 0 after a reset, or a new word with what running it
left. -/
theorem shown_cases_of_step {s t : State} (h : step s = .next t) :
    (t.regs.cmd = s.regs.cmd ∧ t.regs.status = s.regs.status ∧ t.result = s.result) ∨
    (t.regs.cmd = 0#32 ∧ t.regs.status = 0#32 ∧ t.result = 0#64) ∨
    ∃ u : State, t = finish (completionOfWord u.regs.cmd u) u := by
  unfold State.result
  cases stepEffect_of_step h with
  | unchanged _ regs =>
    rw [regs]
    exact .inl ⟨rfl, rfl, rfl⟩
  | reset _ _ regs =>
    rw [regs]
    exact .inr (.inl ⟨rfl, rfl, rfl⟩)
  | operandWrite x v operand _ _ regs =>
    rw [regs]
    rcases operand with rfl | rfl | rfl <;> exact .inl ⟨rfl, rfl, rfl⟩
  | command v rest _ next => exact .inr (.inr ⟨cmdWritten s v rest, next⟩)

/-! ## STATUS is legal (R18, R19, R22, R79) -/

/-- STATUS and RES are all that `StatusLegal` speaks of. -/
theorem StatusLegal.congr {s t : State} (h : StatusLegal s) (hs : t.regs.status = s.regs.status)
    (hr : t.result = s.result) : StatusLegal t := by
  unfold StatusLegal
  rw [hs, hr]
  exact h

theorem statusLegal_of_zero {s : State} (hs : s.regs.status = 0#32) (hr : s.result = 0#64) : StatusLegal s := by
  unfold StatusLegal
  rw [hs, hr]
  decide

/-- CODE reads OK only after a success (R19). -/
theorem codeField_statusWord_eq_one_iff (c : Code) (f : Flags) : codeField (statusWord c f) = 1#4 ↔ c = .ok := by
  rw [codeField_statusWord]
  cases c <;> decide

/-- A sound completion leaves STATUS legal. -/
theorem Completion.Sound.statusLegal_finish {c : Completion} (h : c.Sound) (s : State) : StatusLegal (finish c s) := by
  unfold StatusLegal
  rw [finish_status, finish_result]
  refine ⟨?_, statusWord_reserved _ _, fun hne => ?_⟩
  · have := codeValue_le_six c.code
    rw [codeField_statusWord, BitVec.toNat_ofNat]
    omega
  · have hc : c.code ≠ .ok := fun hok => hne ((codeField_statusWord_eq_one_iff _ _).2 hok)
    obtain ⟨hf, hr⟩ := h.failed_of_ne_ok hc
    rw [satFlag_statusWord, inexactFlag_statusWord, hf]
    exact ⟨rfl, rfl, hr⟩

/-- Settles O29: every completion is sound, and nothing but a completion or a reset writes STATUS or RES. -/
theorem statusStaysLegal : Obligations.StatusStaysLegal := by
  intro s t hs h
  rcases shown_cases_of_step h with ⟨-, hst, hr⟩ | ⟨-, hst, hr⟩ | ⟨u, rfl⟩
  · exact hs.congr hst hr
  · exact statusLegal_of_zero hst hr
  · exact (completionOfWord_sound u.regs.cmd u).statusLegal_finish u

/-! ## No step changes a parameter, and which inputs change which register (R13, R14, R17 to R22) -/

/-- Settles O27, effect by effect. -/
theorem parametersNeverChange : Obligations.ParametersNeverChange := by
  intro s t h
  cases stepEffect_of_step h with
  | unchanged params _ => exact params
  | reset _ params _ => exact params
  | operandWrite _ _ _ _ params _ => exact params
  | command v rest _ next => rw [next, finish_params]; rfl

/-- Settles O25. -/
theorem nothingPendingChangesNothing : Obligations.NothingPendingChangesNothing :=
  fun _ h => step_of_pending_nil h

/-- Settles O28: of the four effects of a step, a command leaves the operand registers alone, and an operand write
changes its own register only. -/
theorem onlyTheseInputsChangeRegisters : Obligations.OnlyTheseInputsChangeRegisters := by
  intro s t h
  cases stepEffect_of_step h with
  | unchanged _ regs => simp [regs]
  | reset input _ _ => exact ⟨fun _ => .inl input, fun _ => .inl input, fun _ => .inl input, fun _ => .inl input⟩
  | operandWrite x v operand input _ regs =>
    rcases operand with rfl | rfl | rfl <;> simpa [regs, Reg.offset] using fun _ => Or.inr input
  | command v rest input next =>
    have hin : s.pending.head? = some (.access (.write 0x00 4 v)) := by rw [input]; rfl
    subst next
    exact ⟨fun _ => .inr ⟨v, hin⟩, fun hne => absurd rfl hne, fun hne => absurd rfl hne, fun hne => absurd rfl hne⟩

/-! ## STATUS and RES are the last command's (R17, R25) -/

/-- Settles O31: a CMD write shows what it ran, a reset shows no command, and every other input leaves CMD, STATUS
and RES together. -/
theorem statusAndResultAreLastCommands : Obligations.StatusAndResultAreLastCommands := by
  intro s t hs h
  have hparams : t.params = s.params := parametersNeverChange s t h
  rcases shown_cases_of_step h with ⟨hc, hst, hr⟩ | hzero | ⟨u, rfl⟩
  · unfold ShowsLastCommand
    rw [hc, hst, hr, hparams]
    exact hs
  · exact .inl hzero
  · exact .inr ⟨u, _, rfl, execute_eq u.regs.cmd u, rfl, rfl⟩

/-! ## A command's frame (R14, R18, R83) -/

/-- Settles O11: a command is one `finish`, which writes STATUS and RES alone. -/
theorem commandFrame : Obligations.CommandFrame := by
  intro i s t h
  cases (exec_eq i s).symm.trans h
  exact ⟨rfl, rfl, rfl, rfl, rfl, rfl, rfl, statusWord_reserved _ _⟩

/-! ## What a result depends on (R20, R21, R25) -/

/-- A command's completion is a function of HOST_BE, FX_TIE, A and B. -/
theorem completionOf_congr (i : Instr) {s t : State} (hbe : s.params.hostBe = t.params.hostBe)
    (htie : s.params.fxTie = t.params.fxTie) (hA : s.operandA = t.operandA) (hB : s.operandB = t.operandB) :
    completionOf i s = completionOf i t := by
  unfold completionOf
  rw [hbe, htie, hA, hB]

/-- So is a command word's. -/
theorem completionOfWord_congr (w : Word) {s t : State} (hbe : s.params.hostBe = t.params.hostBe)
    (htie : s.params.fxTie = t.params.fxTie) (hA : s.operandA = t.operandA) (hB : s.operandB = t.operandB) :
    completionOfWord w s = completionOfWord w t := by
  unfold completionOfWord
  cases decode w with
  | command i => exact completionOf_congr i hbe htie hA hB
  | illegalOpcode => rfl
  | reservedField => rfl

/-- Settles O14: both states end in the same completion. -/
theorem resultDependsOnInputsOnly : Obligations.ResultDependsOnInputsOnly := by
  intro c s₁ s₂ t₁ t₂ hbe htie hA hB h₁ h₂
  cases (execute_eq c s₁).symm.trans h₁
  cases (execute_eq c s₂).symm.trans h₂
  simp only [finish_status, finish_result, completionOfWord_congr c hbe htie hA hB, and_self]

/-- BFX and BFD read A[31:0], which is OPA_LO. -/
theorem operandA_setWidth_32 (s : State) : s.operandA.setWidth 32 = s.regs.opaLo :=
  BitVec.setWidth_append_eq_right

/-- Masking with `ones(k)` keeps the low `k` bits, for `k` beyond the word's width too. -/
theorem and_ones_toNat (b : Word) (k : Nat) : (b &&& ones k).toNat = b.toNat % 2 ^ k := by
  apply Nat.eq_of_testBit_eq
  intro j
  by_cases hj : j < 32
  · simp only [ones, BitVec.toNat_and, BitVec.toNat_ofNat, Nat.testBit_and, Nat.testBit_mod_two_pow,
      Nat.testBit_two_pow_sub_one, hj, decide_true, Bool.true_and, Bool.and_comm]
  · have hb : b.toNat.testBit j = false := BitVec.getLsbD_of_ge b j (by omega)
    simp [hb]

/-- BFD reads only the field's bits of B (R59). -/
theorem bfd_congr (be : Bool) (pos : Nat) {bits : Nat} (a : Word) {b c : Word}
    (h : b.toNat % 2 ^ bits = c.toNat % 2 ^ bits) : bfd be pos bits a b = bfd be pos bits a c := by
  have hm : b &&& ones bits = c &&& ones bits := by
    apply BitVec.eq_of_toNat_eq
    rw [and_ones_toNat, and_ones_toNat, h]
  unfold bfd deposit
  rw [hm]

/-- A byte below the size lies in the low n bytes. -/
theorem byteAt_congr {n : Size} {v w : DWord} (h : v.toNat % 2 ^ (8 * n.bytes) = w.toNat % 2 ^ (8 * n.bytes)) {i : Nat}
    (hi : i < n.bytes) : byteAt v i = byteAt w i := by
  have hsplit : 8 * n.bytes = 8 * i + 8 * (n.bytes - i) := by omega
  have key (x : DWord) : byteAt x i = BitVec.ofNat 8 (x.toNat % 2 ^ (8 * n.bytes) / 2 ^ (8 * i)) := by
    apply BitVec.eq_of_toNat_eq
    rw [byteAt_toNat, BitVec.toNat_ofNat, hsplit, Nat.pow_add, Nat.mod_mul_right_div_self,
      Nat.mod_mod_of_dvd _ (Nat.pow_dvd_pow 2 (by omega))]
  rw [key, key, h]

/-- TOBE and FROMBE read only the low n bytes of A (R63). -/
theorem conv_congr (be : Bool) {n : Size} {v w : DWord}
    (h : v.toNat % 2 ^ (8 * n.bytes) = w.toNat % 2 ^ (8 * n.bytes)) : conv be n v = conv be n w := by
  have hbyte (i : Nat) (hi : i < n.bytes) : byteAt v i = byteAt w i := byteAt_congr h hi
  cases be with
  | true =>
    apply BitVec.eq_of_toNat_eq
    rw [conv_bigEndianHost, conv_bigEndianHost, lowBytes_toNat, lowBytes_toNat, h]
  | false =>
    cases n <;> simp (disch := decide) only [conv_littleEndianHost, byteswap, hbyte]

/-- TOFP reads only the low N bits of A (R74). -/
theorem tofp_congr {n : Nat} (r : Nat) {v w : DWord} (h : v.toNat % 2 ^ n = w.toNat % 2 ^ n) :
    tofp n r v = tofp n r w := by
  have hraw : v.setWidth n = w.setWidth n := BitVec.eq_of_toNat_eq (by simpa using h)
  unfold tofp rawValue
  rw [hraw]

/-- A command's completion is a function of what the command reads. -/
theorem completionOf_congr_of_sameReads {i : Instr} {s t : State} (h : SameReads i s t) :
    completionOf i s = completionOf i t := by
  cases i with
  | bfx pos bits =>
    obtain ⟨hbe, hlo⟩ := h
    simp only [completionOf, operandA_setWidth_32, hbe, hlo]
  | bfd pos bits =>
    obtain ⟨hbe, hlo, hB⟩ := h
    simp only [completionOf, operandA_setWidth_32, hbe, hlo]
    exact bfd_congr _ _ _ hB
  | tobe n =>
    obtain ⟨hbe, hA⟩ := h
    simp only [completionOf, hbe, conv_congr _ hA]
  | frombe n =>
    obtain ⟨hbe, hA⟩ := h
    simp only [completionOf, hbe, conv_congr _ hA]
  | toint n r sat =>
    obtain ⟨htie, hA⟩ := h
    simp only [completionOf, htie, hA]
  | tofp n r => exact tofp_congr r h

/-- Settles O15: states that agree on what a command reads end in the same completion. -/
theorem unreadBitsDoNotMatter : Obligations.UnreadBitsDoNotMatter := by
  intro i s₁ s₂ h
  have hc : completionOf i s₂ = completionOf i s₁ := (completionOf_congr_of_sameReads h).symm
  refine ⟨codeValue (completionOf i s₁).code, (completionOf i s₁).flags.sat, (completionOf i s₁).flags.inexact,
    (completionOf i s₁).res, ?_, ?_⟩
  · rw [exec_eq, finish_eq_completedWith]
  · rw [exec_eq, finish_eq_completedWith, hc]

/-! ## Each code and flag beside its commands (R23, R78) -/

/-- What a decoded word can complete with: the causes of each error code (R78) and of each flag (R23). -/
inductive CanComplete : Decoded → Code → Flags → Prop
  | illegalOpcode : CanComplete .illegalOpcode .illegalOpcode noFlags
  | reservedField : CanComplete .reservedField .reservedField noFlags
  | plainOk (i : Instr) : CanComplete (.command i) .ok noFlags
  | badExtract {pos bits : Nat} (h : pos + 1 < bits) : CanComplete (.command (.bfx pos bits)) .badField noFlags
  | badDeposit {pos bits : Nat} (h : pos + 1 < bits) : CanComplete (.command (.bfd pos bits)) .badField noFlags
  | nan (n r : Nat) (sat : Bool) : CanComplete (.command (.toint n r sat)) .nan noFlags
  | range (n r : Nat) : CanComplete (.command (.toint n r false)) .range noFlags
  | saturated (n r : Nat) (inexact : Bool) :
      CanComplete (.command (.toint n r true)) .ok { sat := true, inexact := inexact }
  | tointRounded (n r : Nat) (sat inexact : Bool) :
      CanComplete (.command (.toint n r sat)) .ok { sat := false, inexact := inexact }
  | tofpRounded (n r : Nat) (inexact : Bool) :
      CanComplete (.command (.tofp n r)) .ok { sat := false, inexact := inexact }

theorem bfx_canComplete (be : Bool) (pos bits : Nat) (a : Word) :
    CanComplete (.command (.bfx pos bits)) (bfx be pos bits a).code (bfx be pos bits a).flags := by
  unfold bfx
  split
  · exact .badExtract ‹_›
  · exact .plainOk _

theorem bfd_canComplete (be : Bool) (pos bits : Nat) (a b : Word) :
    CanComplete (.command (.bfd pos bits)) (bfd be pos bits a b).code (bfd be pos bits a b).flags := by
  unfold bfd
  split
  · exact .badDeposit ‹_›
  · exact .plainOk _

/-- A rounded value neither above nor below the range is an integer in range. -/
theorem exists_inRange_of_not_outside {n : Nat} {v : Rounded} (ha : aboveRange n v ≠ true)
    (hb : belowRange n v ≠ true) : ∃ i, v = .int i ∧ InRange n i := by
  cases v with
  | negInf => exact absurd rfl hb
  | posInf => exact absurd rfl ha
  | int i =>
    simp only [aboveRange, belowRange, ne_eq, decide_eq_true_eq, gt_iff_lt, not_lt] at ha hb
    exact ⟨i, rfl, (inRange_iff n i).2 ⟨hb, ha⟩⟩

/-- The range check of TOINT: out of range it saturates or rejects, as SAT says; in range it sets no SAT flag. -/
theorem placeRounded_canComplete (n r : Nat) (sat inexact : Bool) (v : Rounded) :
    CanComplete (.command (.toint n r sat)) (placeRounded n sat inexact v).code (placeRounded n sat inexact v).flags := by
  by_cases hout : aboveRange n v = true ∨ belowRange n v = true
  · cases sat with
    | false =>
      rw [placeRounded_reject hout]
      exact .range n r
    | true =>
      rcases hout with ha | hb
      · rw [placeRounded_above ha]
        exact .saturated n r inexact
      · rw [placeRounded_below hb]
        exact .saturated n r inexact
  · obtain ⟨ha, hb⟩ := not_or.1 hout
    obtain ⟨i, rfl, hi⟩ := exists_inRange_of_not_outside ha hb
    rw [placeRounded_inRange hi]
    exact .tointRounded n r sat inexact

theorem toint_canComplete (tie : Tie) (n r : Nat) (sat : Bool) (a : DWord) :
    CanComplete (.command (.toint n r sat)) (toint tie n r sat a).code (toint tie n r sat a).flags := by
  unfold toint
  split
  · exact .nan n r sat
  · exact placeRounded_canComplete n r sat _ _
  · exact placeRounded_canComplete n r sat _ _

theorem completionOf_canComplete (i : Instr) (s : State) :
    CanComplete (.command i) (completionOf i s).code (completionOf i s).flags := by
  cases i with
  | bfx pos bits => exact bfx_canComplete _ pos bits _
  | bfd pos bits => exact bfd_canComplete _ pos bits _ _
  | tobe size => exact .plainOk _
  | frombe size => exact .plainOk _
  | toint n r sat => exact toint_canComplete _ n r sat _
  | tofp n r => exact .tofpRounded n r _

theorem completionOfWord_canComplete (w : Word) (s : State) :
    CanComplete (decode w) (completionOfWord w s).code (completionOfWord w s).flags := by
  unfold completionOfWord
  cases decode w with
  | command i => exact completionOf_canComplete i s
  | illegalOpcode => exact .illegalOpcode
  | reservedField => exact .reservedField

/-- CMD and STATUS are all that `CodeFitsCommand` speaks of. -/
theorem CodeFitsCommand.congr {s t : State} (h : CodeFitsCommand s) (hc : t.regs.cmd = s.regs.cmd)
    (hs : t.regs.status = s.regs.status) : CodeFitsCommand t := by
  unfold CodeFitsCommand
  rw [hc, hs]
  exact h

/-- With STATUS 0 no code or flag stands. -/
theorem codeFitsCommand_of_zero {s : State} (h : s.regs.status = 0#32) : CodeFitsCommand s := by
  unfold CodeFitsCommand
  rw [h]
  refine ⟨?_, ?_, ?_, ?_, ?_, ?_, ?_⟩ <;> exact fun hf => absurd hf (by decide)

/-- A completion that the word in CMD can raise leaves STATUS fitting it. -/
theorem CanComplete.codeFitsCommand_finish {c : Completion} {s : State}
    (h : CanComplete (decode s.regs.cmd) c.code c.flags) : CodeFitsCommand (finish c s) := by
  simp only [CodeFitsCommand, finish_cmd, finish_status, codeField_statusWord, satFlag_statusWord,
    inexactFlag_statusWord]
  generalize decode s.regs.cmd = d, c.code = code, c.flags = flags at h
  cases h <;> simp [codeValue, noFlags, *]

/-- Settles O33: every command word completes with a code and flags it can raise, and nothing but a completion or a
reset writes STATUS or CMD. -/
theorem codesStandBesideTheirCommands : Obligations.CodesStandBesideTheirCommands := by
  refine ⟨codeFitsCommand_of_zero rfl, fun s t hs h => ?_⟩
  rcases shown_cases_of_step h with ⟨hc, hst, -⟩ | ⟨-, hst, -⟩ | ⟨u, rfl⟩
  · exact hs.congr hc hst
  · exact codeFitsCommand_of_zero hst
  · exact (completionOfWord_canComplete u.regs.cmd u).codeFitsCommand_finish

end Sys2Proof.Machine

/-! Proofs about the register window (20_memory.md): which accesses are legal, what each kind of access does in one
step, what the bus delivers, and the host's native loads and stores. -/

namespace Sys2Proof.Machine

/-! ## One step on each kind of access (R28 to R31) -/

theorem step_read {s : State} {off : Fin 32} {width : Nat} {rest : List Input}
    (h : s.pending = .access (.read off width) :: rest) :
    step s = .next (performRead off width { s with pending := rest }) := by
  unfold step takePending
  rw [h]
  rfl

theorem step_write {s : State} {off : Fin 32} {width : Nat} {v : Word} {rest : List Input}
    (h : s.pending = .access (.write off width v) :: rest) :
    step s = performWrite off width v { s with pending := rest } := by
  unfold step takePending
  rw [h]
  rfl

/-- A read of a register's own offset is answered with the register (R30). -/
theorem step_read_register {s : State} {rest : List Input} (x : Reg)
    (h : s.pending = .access (.read x.offset 4) :: rest) :
    step s = .next (answered s rest (readOk (s.regs.get x))) := by
  rw [step_read h]
  unfold performRead
  rw [readTarget_offset]
  rfl

/-- A write to a writable register other than CMD stores and is answered (R31). -/
theorem step_write_operand {s : State} {v : Word} {rest : List Input} (x : Reg) (hw : x.writable = true)
    (hx : x ≠ .cmd) (h : s.pending = .access (.write x.offset 4 v) :: rest) :
    step s = .next (answered { s with regs := s.regs.set x v } rest writeOk) := by
  have ht : writeTarget x.offset 4 = some x := (writeTarget_eq_some_iff _ _ _).2 ⟨rfl, rfl, hw⟩
  rw [step_write h]
  unfold performWrite
  rw [ht]
  cases x with
  | cmd => exact absurd rfl hx
  | _ => rfl

/-- An illegal read is answered with ERROR and data 0 (R29). -/
theorem step_illegalRead {s : State} {off : Fin 32} {width : Nat} {rest : List Input}
    (h : s.pending = .access (.read off width) :: rest) (hl : ¬ (Access.read off width).legal = true) :
    step s = .next (answered s rest readError) := by
  have ht : readTarget off width = none := Option.not_isSome_iff_eq_none.1 hl
  rw [step_read h]
  unfold performRead
  rw [ht]
  rfl

/-- An illegal write is answered with ERROR (R29). -/
theorem step_illegalWrite {s : State} {off : Fin 32} {width : Nat} {v : Word} {rest : List Input}
    (h : s.pending = .access (.write off width v) :: rest) (hl : ¬ (Access.write off width v).legal = true) :
    step s = .next (answered s rest writeError) := by
  have ht : writeTarget off width = none := Option.not_isSome_iff_eq_none.1 hl
  rw [step_write h]
  unfold performWrite
  rw [ht]
  rfl

/-- A pending CMD write executes its word in the state `cmdWritten` describes (R31). -/
theorem step_cmdWrite_eq_execute {s : State} {w : Word} {rest : List Input} (h : s.pending = cmdWrite w :: rest) :
    step s = execute w (cmdWritten s w rest) := step_cmdWrite h

/-- It therefore ends in one completion of that state (R52). -/
theorem step_cmdWrite_eq_finish {s : State} {w : Word} {rest : List Input} (h : s.pending = cmdWrite w :: rest) :
    step s = .next (finish (completionOfWord w (cmdWritten s w rest)) (cmdWritten s w rest)) := by
  rw [step_cmdWrite_eq_execute h, execute_eq]

/-- The word of a command is executed as that command. -/
theorem execute_of_decode_command {w : Word} {i : Instr} (h : decode w = .command i) (s : State) :
    execute w s = exec i s := by
  unfold execute
  rw [h]

/-- CODE reads NONE only when no command has completed (R19). -/
theorem codeField_statusWord_eq_zero_iff (c : Code) (f : Flags) : codeField (statusWord c f) = 0#4 ↔ c = .none := by
  rw [codeField_statusWord]
  cases c <;> decide

/-- Settles O6: the pending CMD write executes its word, and the word is the command's. -/
theorem stepRunsDecodedCommand : Obligations.StepRunsDecodedCommand := by
  intro s c rest i hp hd
  rw [step_cmdWrite_eq_execute hp, execute_of_decode_command hd]

/-- Settles O26, case by case of what a step can do. -/
theorem everyStepAnswersNext : Obligations.EveryStepAnswersNext := by
  intro s
  rcases step_cases s with ⟨-, hs⟩ | ⟨_, -, hs⟩ | ⟨_, _, _, -, hs⟩ | ⟨_, _, _, _, -, -, hs⟩ |
    ⟨_, _, _, _, _, -, -, -, hs⟩ | ⟨_, _, _, _, -, -, hs⟩
  · exact ⟨_, hs⟩
  · exact ⟨_, hs⟩
  · exact ⟨_, hs⟩
  · exact ⟨_, hs⟩
  · exact ⟨_, hs⟩
  · exact ⟨_, hs.trans (execute_eq _ _)⟩

/-- A completion leaves A, B and the parameters, so the same word written again completes alike (R25). -/
theorem completionOfWord_written_again (w : Word) (c : Completion) (s : State) (rest rest' : List Input) :
    completionOfWord w (cmdWritten (finish c (cmdWritten s w rest)) w rest') =
      completionOfWord w (cmdWritten s w rest) :=
  completionOfWord_congr w rfl rfl rfl rfl

/-- Settles O13: the second write stores the word CMD holds, and completes as the first did. -/
theorem repeatedCmdWriteIsIdempotent : Obligations.RepeatedCmdWriteIsIdempotent := by
  intro s t c rest hp h
  cases (step_cmdWrite_eq_finish hp).symm.trans h
  refine ⟨_, step_cmdWrite_eq_finish rfl, ?_⟩
  rw [completionOfWord_written_again]
  rfl

/-! ## Legal accesses (R28, R29, R35) -/

theorem exists_offset_iff (off : Fin 32) :
    (∃ x : Reg, off = x.offset) ↔ off.val ∈ [0x00, 0x04, 0x08, 0x0C, 0x10, 0x14, 0x18] := by
  simp only [← regAt_eq_some_iff, ← Option.isSome_iff_exists]
  revert off
  decide

theorem exists_writable_offset_iff (off : Fin 32) :
    (∃ x : Reg, off = x.offset ∧ x.writable = true) ↔ off.val ∈ [0x00, 0x08, 0x0C, 0x10] := by
  simp only [Reg.writable_iff, and_or_left, exists_or, exists_eq_right]
  revert off
  decide

theorem read_legal_iff (off : Fin 32) (width : Nat) :
    (Access.read off width).legal = true ↔
      width = 4 ∧ off.val ∈ [0x00, 0x04, 0x08, 0x0C, 0x10, 0x14, 0x18] := by
  simp only [Access.legal, Option.isSome_iff_exists, readTarget_eq_some_iff, exists_and_left, exists_offset_iff]

theorem write_legal_iff (off : Fin 32) (width : Nat) (v : Word) :
    (Access.write off width v).legal = true ↔ width = 4 ∧ off.val ∈ [0x00, 0x08, 0x0C, 0x10] := by
  simp only [Access.legal, Option.isSome_iff_exists, writeTarget_eq_some_iff, exists_and_left,
    exists_writable_offset_iff]

/-- Settles O16. -/
theorem legalAccesses : Obligations.LegalAccesses :=
  fun off width v => ⟨read_legal_iff off width, write_legal_iff off width v⟩

/-- Settles O17: each of the seven offsets is its register's. -/
theorem legalReadReturnsRegister : Obligations.LegalReadReturnsRegister := by
  intro s off v rest hp h
  have key (x : Reg) (ho : off.val = x.offset.val) (hv : v = s.regs.get x) :
      step s = .next (answered s rest { code := .ok, data := some v }) := by
    cases Fin.ext ho
    rw [step_read_register x hp, hv]
    rfl
  rcases h with ⟨ho, hv⟩ | ⟨ho, hv⟩ | ⟨ho, hv⟩ | ⟨ho, hv⟩ | ⟨ho, hv⟩ | ⟨ho, hv⟩ | ⟨ho, hv⟩
  · exact key .cmd ho hv
  · exact key .status ho hv
  · exact key .opaLo ho hv
  · exact key .opaHi ho hv
  · exact key .opb ho hv
  · exact key .resLo ho hv
  · exact key .resHi ho hv

/-- Settles O18: each cause of R29 makes the access illegal, and an illegal access is only answered. -/
theorem illegalAccessIsBusError : Obligations.IllegalAccessIsBusError := by
  refine fun s off width v rest => ⟨fun hp hc => step_illegalRead hp ?_, fun hp hc => step_illegalWrite hp ?_⟩
  · simp only [read_legal_iff, List.mem_cons, List.not_mem_nil, or_false]
    omega
  · simp only [write_legal_iff, List.mem_cons, List.not_mem_nil, or_false]
    omega

/-- Settles O19: a write to an operand register stores and is answered; one to CMD stores, and runs the word to its
completion, whose code is not NONE. -/
theorem legalWriteStores : Obligations.LegalWriteStores := by
  refine fun s v rest => ⟨step_write_operand .opaLo rfl (by decide), step_write_operand .opaHi rfl (by decide),
    step_write_operand .opb rfl (by decide), fun hp => ?_⟩
  refine ⟨_, step_cmdWrite_eq_finish hp, execute_eq _ _, rfl, rfl, ?_⟩
  rw [finish_status, Ne, codeField_statusWord_eq_zero_iff]
  exact (completionOfWord_sound v _).code_ne_none

/-! ## The bus in front of the window (R27) -/

theorem windowOffset_base_add (p : Params) (off : Fin 32) : windowOffset p (p.base + off.val) = some off := by
  simp [windowOffset]

theorem windowOffset_of_outside {p : Params} {address : Nat} (h : address < p.base ∨ p.base + 32 ≤ address) :
    windowOffset p address = none := by
  unfold windowOffset
  split
  · exact dif_neg (by omega)
  · rfl

/-- Settles O21. -/
theorem windowDecoding : Obligations.WindowDecoding := by
  refine fun s address t => ⟨fun off ha => ?_, fun ho => ?_⟩
  · unfold State.deliver
    rw [ha, windowOffset_base_add]
  · unfold State.deliver
    rw [windowOffset_of_outside ho]

/-! ## Native loads and stores (R33) -/

/-- The first wire byte counts in units of the bytes after it (R32). -/
theorem bigEndianValue_cons (b : Byte) (bs : List Byte) :
    bigEndianValue (b :: bs) = b.toNat * 256 ^ bs.length + bigEndianValue bs := by
  have key (acc : Nat) : bs.foldl (fun acc b => acc * 256 + b.toNat) acc =
      acc * 256 ^ bs.length + bigEndianValue bs := by
    unfold bigEndianValue
    induction bs generalizing acc with
    | nil => simp
    | cons c bs ih =>
      rw [List.foldl_cons, List.foldl_cons, ih, ih (0 * 256 + c.toNat), List.length_cons]
      ring
  simpa [bigEndianValue] using key b.toNat

theorem bigEndianBytes_succ (n : Nat) (v : DWord) :
    bigEndianBytes (n + 1) v = byteAt v n :: bigEndianBytes n v := by
  simp [bigEndianBytes, List.range_succ]

@[simp] theorem bigEndianBytes_length (n : Nat) (v : DWord) : (bigEndianBytes n v).length = n := by
  simp [bigEndianBytes]

@[simp] theorem hostStore_length (be : Bool) (n : Nat) (v : DWord) : (hostStore be n v).length = n := by
  cases be <;> simp [hostStore]

/-- The bytes of the low n bytes, most significant first, spell their value. -/
theorem bigEndianValue_bigEndianBytes (n : Nat) (v : DWord) :
    bigEndianValue (bigEndianBytes n v) = v.toNat % 2 ^ (8 * n) := by
  induction n with
  | zero => simp [bigEndianBytes, bigEndianValue, Nat.mod_one]
  | succ n ih =>
    have h256 : (256 : Nat) ^ n = 2 ^ (8 * n) := by rw [Nat.pow_mul]
    rw [bigEndianBytes_succ, bigEndianValue_cons, ih, byteAt_toNat, bigEndianBytes_length, h256, Nat.mul_add_one,
      Nat.pow_add, Nat.mod_mul, Nat.mul_comm, Nat.add_comm]

/-- A load puts the bytes of a store in significance order again, whatever the host's order. -/
theorem hostLoad_hostStore (be : Bool) (n : Size) (v : DWord) :
    (hostLoad be (hostStore be n.bytes v)).toNat = v.toNat % 2 ^ (8 * n.bytes) := by
  have horder : (if be then hostStore be n.bytes v else (hostStore be n.bytes v).reverse) =
      bigEndianBytes n.bytes v := by
    cases be <;> simp [hostStore]
  rw [hostLoad, horder, bigEndianValue_bigEndianBytes, BitVec.toNat_ofNat, Nat.mod_eq_of_lt]
  exact (Nat.mod_le _ _).trans_lt v.isLt

/-- Memory holds the bytes just written, from the address on. -/
theorem Memory.map_read_writeBytes {m : Memory} (h : m.wf) (p : Nat) (bs : List Byte) :
    (List.range bs.length).map (fun i => (m.writeBytes p bs).read (p + i)) = bs := by
  apply List.ext_getElem
  · simp
  · intro i _ hi
    simp [Memory.read_writeBytes h, hi]

/-- A native store writes no address outside its n. -/
theorem Memory.read_nativeStore_of_outside {m : Memory} (h : m.wf) (be : Bool) {n p a : Nat} (v : DWord)
    (ha : a < p ∨ p + n ≤ a) : (m.nativeStore be n p v).read a = m.read a := by
  unfold Memory.nativeStore
  rw [Memory.read_writeBytes h]
  split
  · rw [List.getElem?_eq_none (by rw [hostStore_length]; omega), Option.getD_none]
  · rfl

/-- A native load reads the bytes of the store there. -/
theorem Memory.nativeLoad_nativeStore {m : Memory} (h : m.wf) (be : Bool) (n p : Nat) (v : DWord) :
    Memory.nativeLoad be n (m.nativeStore be n p v) p = hostLoad be (hostStore be n v) := by
  have hread := Memory.map_read_writeBytes h p (hostStore be n v)
  rw [hostStore_length] at hread
  unfold Memory.nativeLoad Memory.nativeStore
  rw [hread]

/-- Settles O42: the store's bytes lie in memory as written, and a load puts them together again. -/
theorem nativeLoadUndoesStore : Obligations.NativeLoadUndoesStore := by
  refine fun be n m p v hm => ⟨hostLoad_hostStore be n v, ?_, fun a ha => ?_⟩
  · rw [Memory.nativeLoad_nativeStore hm, hostLoad_hostStore]
  · exact Memory.read_nativeStore_of_outside hm be v ha

end Sys2Proof.Machine

/-! Proofs about the encoding of commands (30_encoding.md): the decoder outcome by outcome, the round trips, a CMD
write of every kind of word, and the host's lines that reach the block. -/

namespace Sys2Proof

/-! ## The opcode map and the format's fixed bits (R44 to R50)

Every format keeps its operands in the low bits of the word and 0 between them and OP, so one number per operation
gives its reserved bits, its mask and its match. -/

theorem Op.ofCode_eq_some_iff (x : BitVec 4) (op : Op) : Op.ofCode x = some op ↔ x = op.code := by
  revert x
  cases op <;> decide

/-- OP names no operation at 0x0 and 0x7 … 0xF (R49). -/
theorem Op.ofCode_eq_none_iff (x : BitVec 4) : Op.ofCode x = none ↔ x.toNat = 0 ∨ 7 ≤ x.toNat := by
  revert x
  decide

theorem Field.op_eq_code_iff (c : Word) (op : Op) : Field.op c = op.code ↔ c.toNat / 2 ^ 28 = op.code.toNat := by
  rw [← BitVec.toNat_inj, Field.op_toNat]

/-- How many low bits of the word hold the operation's operands (R44 to R46). -/
def Op.operandBits : Op → Nat
  | .bfx => 10
  | .bfd => 10
  | .tobe => 2
  | .frombe => 2
  | .toint => 13
  | .tofp => 12

theorem Op.operandBits_le (op : Op) : op.operandBits ≤ 28 := by cases op <;> decide

/-- The reserved bits lie between the operands and OP. -/
theorem Op.reserved_eq_zero_iff (op : Op) (c : Word) :
    c &&& op.reserved = 0#32 ↔ c.toNat / 2 ^ op.operandBits % 2 ^ (28 - op.operandBits) = 0 := by
  have hr : op.reserved = BitVec.ofNat 32 ((2 ^ (28 - op.operandBits) - 1) * 2 ^ op.operandBits) := by
    cases op <;> rfl
  rw [hr, and_mask_eq_zero_iff c _ _ (by cases op <;> decide)]

/-- The masked bits of the word are all those above the operands (R48). -/
theorem Op.masked_toNat (op : Op) (c : Word) :
    (c &&& op.maskWord).toNat = c.toNat / 2 ^ op.operandBits * 2 ^ op.operandBits := by
  have hm : op.maskWord.toNat = (2 ^ (32 - op.operandBits) - 1) * 2 ^ op.operandBits := by cases op <;> rfl
  have hk := op.operandBits_le
  have hlt : c.toNat / 2 ^ op.operandBits < 2 ^ (32 - op.operandBits) := by
    rw [Nat.div_lt_iff_lt_mul (by positivity), ← Nat.pow_add, Nat.sub_add_cancel (by omega)]
    exact c.isLt
  rw [BitVec.toNat_and, hm, and_run, Nat.mod_eq_of_lt hlt]

/-- A word matches a row of the opcode map exactly when its OP is the row's and the format's reserved bits are 0. -/
theorem Op.masked_eq_match_iff (op : Op) (c : Word) :
    c &&& op.maskWord = op.matchWord ↔ Field.op c = op.code ∧ c &&& op.reserved = 0#32 := by
  have hmatch : op.matchWord.toNat = op.code.toNat * 2 ^ (28 - op.operandBits) * 2 ^ op.operandBits := by
    cases op <;> rfl
  have hdiv : c.toNat / 2 ^ 28 = c.toNat / 2 ^ op.operandBits / 2 ^ (28 - op.operandBits) := by
    rw [Nat.div_div_eq_div_mul, ← Nat.pow_add, Nat.add_sub_cancel' op.operandBits_le]
  rw [← BitVec.toNat_inj, op.masked_toNat, hmatch, Nat.mul_left_inj (by positivity), Field.op_eq_code_iff,
    op.reserved_eq_zero_iff, hdiv]
  have hpos : 0 < 2 ^ (28 - op.operandBits) := by positivity
  constructor
  · intro h
    rw [h, Nat.mul_div_cancel _ hpos, Nat.mul_mod_left]
    exact ⟨rfl, rfl⟩
  · rintro ⟨hop, hzero⟩
    rw [← hop, Nat.div_mul_cancel (Nat.dvd_of_mod_eq_zero hzero)]

/-! ## The decoder, outcome by outcome (R49, R50, R52) -/

theorem decode_eq_illegalOpcode_iff (c : Word) :
    decode c = .illegalOpcode ↔ c.toNat / 2 ^ 28 = 0 ∨ 7 ≤ c.toNat / 2 ^ 28 := by
  rw [← Field.op_toNat, ← Op.ofCode_eq_none_iff]
  cases h : Op.ofCode (Field.op c) with
  | none => simp [decode, h]
  | some op =>
    rw [decode_of_op h]
    split <;> simp

theorem decode_of_reserved {c : Word} {op : Op} (h : Field.op c = op.code) (hr : c &&& op.reserved ≠ 0#32) :
    decode c = .reservedField := by
  rw [decode_of_op ((Op.ofCode_eq_some_iff _ op).2 h), if_pos hr]

/-- A word decodes to a command exactly when it matches the row of the command's operation and holds its operands. -/
theorem decode_eq_command_iff (c : Word) (i : Instr) :
    decode c = .command i ↔ c &&& i.op.maskWord = i.op.matchWord ∧ i.op.instr c = i := by
  rw [Op.masked_eq_match_iff, ← Op.ofCode_eq_some_iff]
  constructor
  · intro h
    cases hop : Op.ofCode (Field.op c) with
    | none => simp [decode, hop] at h
    | some op =>
      rw [decode_of_op hop] at h
      split at h
      · cases h
      · cases h
        rw [Op.instr_op]
        exact ⟨⟨rfl, not_not.1 ‹_›⟩, rfl⟩
  · rintro ⟨⟨hop, hr⟩, hi⟩
    rw [decode_of_op hop, if_neg (not_not.2 hr), hi]

theorem masked_of_decode {c : Word} {i : Instr} (h : decode c = .command i) :
    c &&& i.op.maskWord = i.op.matchWord := ((decode_eq_command_iff c i).1 h).1

theorem decode_of_masked {c : Word} (op : Op) (h : c &&& op.maskWord = op.matchWord) :
    decode c = .command (op.instr c) :=
  (decode_eq_command_iff c _).2 (by rw [Op.instr_op]; exact ⟨h, rfl⟩)

/-- Settles O4: a word that matches a row is the row's command, and a decoded command's word matches its row. -/
theorem decodeFollowsOpcodeMap : Obligations.DecodeFollowsOpcodeMap := fun c =>
  ⟨⟨fun h => ⟨_, _, decode_of_masked .bfx h⟩, fun ⟨_, _, h⟩ => masked_of_decode h⟩,
    ⟨fun h => ⟨_, _, decode_of_masked .bfd h⟩, fun ⟨_, _, h⟩ => masked_of_decode h⟩,
    ⟨fun h => ⟨_, decode_of_masked .tobe h⟩, fun ⟨_, h⟩ => masked_of_decode h⟩,
    ⟨fun h => ⟨_, decode_of_masked .frombe h⟩, fun ⟨_, h⟩ => masked_of_decode h⟩,
    ⟨fun h => ⟨_, _, _, decode_of_masked .toint h⟩, fun ⟨_, _, _, h⟩ => masked_of_decode h⟩,
    ⟨fun h => ⟨_, _, decode_of_masked .tofp h⟩, fun ⟨_, _, h⟩ => masked_of_decode h⟩,
    (decode_eq_illegalOpcode_iff c).symm⟩

/-! ## The operands of an encoded command (R44 to R47) -/

/-- A size is its two-bit field SZ (R45). -/
theorem Field.size_eq_iff (c : Word) (size : Size) : Field.size c = size ↔ c.toNat % 2 ^ 2 = size.code.toNat := by
  have hsz : c.toNat % 2 ^ 2 = (c.extractLsb' 0 2).toNat := by simp [BitVec.extractLsb'_toNat]
  rw [hsz, BitVec.toNat_inj]
  unfold Field.size
  generalize c.extractLsb' 0 2 = sz
  revert sz
  cases size <;> decide

theorem Size.bytes_eq (size : Size) : size.bytes = 2 ^ size.code.toNat := by cases size <;> rfl

/-- SAT is the number of bit 12 (R46). -/
theorem Field.sat_eq_iff (c : Word) (sat : Bool) : Field.sat c = sat ↔ c.toNat / 2 ^ 12 % 2 = sat.toNat := by
  rw [Field.sat_eq]
  cases sat with
  | true => exact decide_eq_true_iff
  | false => exact decide_eq_false_iff_not.trans Nat.mod_two_ne_one

theorem bitFieldFits_iff (pos bits : Nat) :
    Instr.bitFieldFits pos bits = true ↔ pos ≤ 31 ∧ 1 ≤ bits ∧ bits ≤ 32 := by
  simp [Instr.bitFieldFits, and_assoc]

theorem fixedPointFits_iff (n r : Nat) : Instr.fixedPointFits n r = true ↔ 1 ≤ n ∧ n ≤ 64 ∧ r ≤ 63 := by
  simp [Instr.fixedPointFits, and_assoc]

theorem fields_encodeBF (op : Op) {pos bits : Nat} (h : Instr.bitFieldFits pos bits = true) :
    Field.pos (encodeBF op pos bits) = pos ∧ Field.bits (encodeBF op pos bits) = bits := by
  have hc := op.code.isLt
  rw [bitFieldFits_iff] at h
  rw [Field.pos_eq, Field.bits_eq, encodeBF, BitVec.toNat_ofNat]
  omega

theorem field_encodeES (op : Op) (size : Size) : Field.size (encodeES op size) = size := by
  have hs := size.code.isLt
  rw [Field.size_eq_iff, encodeES, BitVec.toNat_ofNat]
  omega

theorem fields_encodeFX (op : Op) (sat : Bool) {n r : Nat} (h : Instr.fixedPointFits n r = true) :
    Field.n (encodeFX op sat n r) = n ∧ Field.r (encodeFX op sat n r) = r ∧ Field.sat (encodeFX op sat n r) = sat := by
  have hc := op.code.isLt
  have hs := Bool.toNat_lt sat
  rw [fixedPointFits_iff] at h
  refine ⟨?_, ?_, (Field.sat_eq_iff _ _).2 ?_⟩
  · rw [Field.n_eq, encodeFX, BitVec.toNat_ofNat]
    omega
  · rw [Field.r_eq, encodeFX, BitVec.toNat_ofNat]
    omega
  · rw [encodeFX, BitVec.toNat_ofNat]
    omega

/-- The word of a well-formed command holds its operands. -/
theorem instr_encode {i : Instr} (h : i.wf = true) : i.op.instr (encode i) = i := by
  cases i with
  | bfx pos bits =>
    obtain ⟨hp, hb⟩ := fields_encodeBF .bfx h
    exact congrArg₂ Instr.bfx hp hb
  | bfd pos bits =>
    obtain ⟨hp, hb⟩ := fields_encodeBF .bfd h
    exact congrArg₂ Instr.bfd hp hb
  | tobe size => exact congrArg Instr.tobe (field_encodeES .tobe size)
  | frombe size => exact congrArg Instr.frombe (field_encodeES .frombe size)
  | toint n r sat =>
    obtain ⟨hn, hr, hs⟩ := fields_encodeFX .toint sat h
    simp only [encode, Instr.op, Op.instr, hn, hr, hs]
  | tofp n r =>
    obtain ⟨hn, hr, -⟩ := fields_encodeFX .tofp false h
    exact congrArg₂ Instr.tofp hn hr

/-- The word of a well-formed command has its OP, and 0 in every reserved bit. -/
theorem encodeShape (i : Instr) : Laws.EncodeShape.Statement i := by
  cases i with
  | bfx pos bits => exact Laws.EncodeShape.bfx pos bits
  | bfd pos bits => exact Laws.EncodeShape.bfd pos bits
  | tobe size => exact Laws.EncodeShape.tobe size
  | frombe size => exact Laws.EncodeShape.frombe size
  | toint n r sat => exact Laws.EncodeShape.toint n r sat
  | tofp n r => exact Laws.EncodeShape.tofp n r

/-- Settles O2: the word matches the row of the command's operation and holds the command's operands. -/
theorem decodeEncodeRoundTrip : Obligations.DecodeEncodeRoundTrip := fun i h =>
  (decode_eq_command_iff _ i).2 ⟨(i.op.masked_eq_match_iff _).2 (encodeShape i h), instr_encode h⟩

/-! ## The word of a decoded command (R43 to R46, R50) -/

/-- The fields of any word fit the operation's format. -/
theorem instr_wf (op : Op) (c : Word) : (op.instr c).wf = true := by
  have hbf : Instr.bitFieldFits (Field.pos c) (Field.bits c) = true := by
    rw [bitFieldFits_iff, Field.pos_eq, Field.bits_eq]
    omega
  have hfx : Instr.fixedPointFits (Field.n c) (Field.r c) = true := by
    rw [fixedPointFits_iff, Field.n_eq, Field.r_eq]
    omega
  cases op with
  | bfx => exact hbf
  | bfd => exact hbf
  | tobe => rfl
  | frombe => rfl
  | toint => exact hfx
  | tofp => exact hfx

/-- A word that matches a row is OP above the operand bits, and nothing between. -/
theorem toNat_of_masked {c : Word} (op : Op) (h : c &&& op.maskWord = op.matchWord) :
    c.toNat = op.code.toNat * 2 ^ 28 + c.toNat % 2 ^ op.operandBits := by
  have hmatch : op.matchWord.toNat = op.code.toNat * 2 ^ 28 := by cases op <;> rfl
  rw [← hmatch, ← h, op.masked_toNat, Nat.div_add_mod']

theorem encodeBF_fields {c : Word} (op : Op) (h : c.toNat = op.code.toNat * 2 ^ 28 + c.toNat % 2 ^ 10) :
    encodeBF op (Field.pos c) (Field.bits c) = c := by
  apply BitVec.eq_of_toNat_eq
  rw [encodeBF, Field.pos_eq, Field.bits_eq, BitVec.toNat_ofNat]
  omega

theorem encodeES_field {c : Word} (op : Op) (h : c.toNat = op.code.toNat * 2 ^ 28 + c.toNat % 2 ^ 2) :
    encodeES op (Field.size c) = c := by
  apply BitVec.eq_of_toNat_eq
  rw [encodeES, ← (Field.size_eq_iff c _).1 rfl, BitVec.toNat_ofNat]
  omega

theorem encodeFX_fields {c : Word} (op : Op) (h : c.toNat = op.code.toNat * 2 ^ 28 + c.toNat % 2 ^ 12) :
    encodeFX op false (Field.n c) (Field.r c) = c := by
  apply BitVec.eq_of_toNat_eq
  rw [encodeFX, Field.n_eq, Field.r_eq, Bool.toNat_false, BitVec.toNat_ofNat]
  omega

theorem encodeFX_fields_sat {c : Word} (op : Op) (h : c.toNat = op.code.toNat * 2 ^ 28 + c.toNat % 2 ^ 13) :
    encodeFX op (Field.sat c) (Field.n c) (Field.r c) = c := by
  apply BitVec.eq_of_toNat_eq
  rw [encodeFX, Field.n_eq, Field.r_eq, ← (Field.sat_eq_iff c _).1 rfl, BitVec.toNat_ofNat]
  omega

/-- The encoder puts the fields of a matching word back where they stood. -/
theorem encode_instr {c : Word} (op : Op) (h : c &&& op.maskWord = op.matchWord) : encode (op.instr c) = c := by
  have hc := toNat_of_masked op h
  cases op with
  | bfx => exact encodeBF_fields .bfx hc
  | bfd => exact encodeBF_fields .bfd hc
  | tobe => exact encodeES_field .tobe hc
  | frombe => exact encodeES_field .frombe hc
  | toint => exact encodeFX_fields_sat .toint hc
  | tofp => exact encodeFX_fields .tofp hc

/-- Settles O3: the command is the row's command on the word's own fields. -/
theorem encodeDecodeRoundTrip : Obligations.EncodeDecodeRoundTrip := by
  intro c i h
  obtain ⟨hm, hi⟩ := (decode_eq_command_iff c i).1 h
  rw [← hi]
  exact ⟨encode_instr i.op hm, instr_wf i.op c⟩

/-- Settles O1: each word is the encoding of its command. -/
theorem workedEncodingsDecode : Obligations.WorkedEncodingsDecode :=
  ⟨decodeEncodeRoundTrip (.bfx 31 4) rfl, decodeEncodeRoundTrip (.bfd 29 1) rfl,
    decodeEncodeRoundTrip (.tobe .four) rfl, decodeEncodeRoundTrip (.frombe .four) rfl,
    decodeEncodeRoundTrip (.toint 64 20 false) rfl, decodeEncodeRoundTrip (.toint 16 7 true) rfl,
    decodeEncodeRoundTrip (.tofp 16 7) rfl⟩

/-- Settles O5. -/
theorem fieldsAreUnsignedSlices : Obligations.FieldsAreUnsignedSlices := by
  intro c
  have hsize : (Field.size c).bytes = 2 ^ (c.toNat % 4) := by
    rw [Size.bytes_eq, ← (Field.size_eq_iff c _).1 rfl]
    rfl
  exact ⟨Field.pos_eq c, Field.bits_eq c, hsize, Field.n_eq c, Field.r_eq c, by simp [Field.sat_eq]⟩

end Sys2Proof

namespace Sys2Proof.Machine

/-! ## A CMD write of each kind of word (R49, R50, R52) -/

/-- Settles O7: the word placed is `w` itself, and its write is the first pending input. -/
theorem fetchWordRunsNext : Obligations.FetchWordRunsNext := by
  intro s w i hw hd
  refine stepRunsDecodedCommand (s.withFetchWord 32 w) _ s.pending i ?_ hd
  rw [State.withFetchWord, Nat.mod_eq_of_lt hw]

/-- `fail CODE` in the terms claims are stated in. -/
theorem finish_failed (code : Code) (s : State) : finish (failed code) s = failedWith s (codeValue code) :=
  finish_eq_completedWith _ _

/-- Settles O8: such a word decodes to no operation. -/
theorem illegalOpcodeCompletes : Obligations.IllegalOpcodeCompletes := by
  intro s c rest hp hop
  have hd : decode c = .illegalOpcode := (decode_eq_illegalOpcode_iff c).2 hop
  rw [step_cmdWrite_eq_finish hp, completionOfWord, hd]
  exact congrArg _ (finish_failed .illegalOpcode _)

/-- A CMD write of a word with an operation's OP and one of its reserved bits set. -/
theorem step_reservedField {s : State} {c : Word} {rest : List Input} (hp : s.pending = cmdWrite c :: rest) (op : Op)
    (h : c.toNat / 2 ^ 28 = op.code.toNat ∧ c &&& op.reserved ≠ 0#32) :
    step s = .next (failedWith (cmdWritten s c rest) 3) := by
  obtain ⟨hop, hr⟩ := h
  have hd : decode c = .reservedField := decode_of_reserved ((Field.op_eq_code_iff c op).2 hop) hr
  rw [step_cmdWrite_eq_finish hp, completionOfWord, hd]
  exact congrArg _ (finish_failed .reservedField _)

/-- Settles O9, operation by operation. -/
theorem reservedFieldCompletes : Obligations.ReservedFieldCompletes := by
  intro s c rest hp h
  rcases h with h | h | h | h | h | h
  · exact step_reservedField hp .bfx h
  · exact step_reservedField hp .bfd h
  · exact step_reservedField hp .tobe h
  · exact step_reservedField hp .frombe h
  · exact step_reservedField hp .toint h
  · exact step_reservedField hp .tofp h

theorem codeValue_eq_one_iff (c : Code) : codeValue c = 1 ↔ c = .ok := by cases c <;> decide

theorem codeValue_pos {c : Code} (h : c ≠ .none) : 1 ≤ codeValue c := by
  cases c with
  | none => exact absurd rfl h
  | _ => decide

/-- A sound completion has a code from 1 to 6, and flags and a non-zero result only with OK (R79). -/
theorem Completion.Sound.exists_completedWith {c : Completion} (h : c.Sound) (s : State) :
    ∃ code sat inexact res, 1 ≤ code ∧ code ≤ 6 ∧ (code ≠ 1 → sat = false ∧ inexact = false ∧ res = 0#64) ∧
      Host.Outcome.next (φ := Fault) (ρ := Refusal) (finish c s) = .next (completedWith s code sat inexact res) := by
  refine ⟨codeValue c.code, c.flags.sat, c.flags.inexact, c.res, codeValue_pos h.code_ne_none, codeValue_le_six _,
    fun hne => ?_, by rw [finish_eq_completedWith]⟩
  obtain ⟨hf, hr⟩ := h.failed_of_ne_ok fun hok => hne ((codeValue_eq_one_iff _).2 hok)
  rw [hf]
  exact ⟨rfl, rfl, hr⟩

/-- Settles O10: every command and every word ends in one sound completion. -/
theorem everyCommandCompletesOnce : Obligations.EveryCommandCompletesOnce := by
  refine ⟨fun i s => ?_, fun c s => ?_⟩
  · rw [exec_eq]
    exact (completionOf_sound i s).exists_completedWith s
  · rw [execute_eq]
    exact (completionOfWord_sound c s).exists_completedWith s

/-! ## The host's lines (R53, R55) -/

/-- What an assembler accepts, a command word can hold. -/
theorem wf_of_assembles {i : Instr} (h : i.assembles = true) : i.wf = true := by
  cases i with
  | bfx pos bits => exact (Bool.and_eq_true_iff.1 h).1
  | bfd pos bits => exact (Bool.and_eq_true_iff.1 h).1
  | tobe size => rfl
  | frombe size => rfl
  | toint n r sat => exact h
  | tofp n r => exact h

theorem wf_of_evalCommand {vars : List (Var × HostValue)} {c : CommandExpr} {i : Instr}
    (h : evalCommand vars c = some i) : i.wf = true := by
  unfold evalCommand at h
  exact wf_of_assembles (Option.filter_eq_some_iff.1 h).2

/-- Beside a block with nothing pending, a line's input is the only one, and its step the block's next. -/
theorem System.offer_of_idle {y : System} {i : Input} {t : State} (hidle : y.block.pending = [])
    (h : Sys2Proof.Machine.step { y.block with pending := [i] } = .next t) (next : System → ScriptOutcome) :
    y.offer i next = next { y with block := t } :=
  System.offer_eq (by rw [hidle]; exact h) next

theorem System.bindData_of_responses {y : System} {rs : List Response} {p : Response} {v : Word}
    (h : y.block.responses = rs ++ [p]) (hv : p.data = some v) (x : Var) :
    y.bindData x = .running (y.bind x (.word v)).advance := by
  simp [System.bindData, System.lastResponse_of_responses h, hv]

theorem runLine_wrCommand {y : System} (hidle : y.block.pending = []) {c : CommandExpr} {i : Instr}
    (hc : evalCommand y.vars c = some i) :
    ∃ t, exec i (cmdWritten y.block (encode i) []) = .next t ∧
      runLine (.wrCommand c) y = .running { y with block := t, line := y.line + 1 } := by
  have hd : decode (encode i) = .command i := decodeEncodeRoundTrip i (wf_of_evalCommand hc)
  have hexec := exec_eq i (cmdWritten y.block (encode i) [])
  refine ⟨_, hexec, ?_⟩
  have hs := (stepRunsDecodedCommand { y.block with pending := [cmdWrite (encode i)] } _ _ i rfl hd).trans hexec
  simp only [runLine, hc, withValue]
  rw [System.offer_of_idle hidle hs]
  rfl

theorem runLine_rd {y : System} (hidle : y.block.pending = []) (x : Reg) (d : Var) :
    runLine (.rd x d) y = .running { y with
      block := answered y.block [] { code := .ok, data := some (y.block.regs.get x) }
      vars := (d, .word (y.block.regs.get x)) :: y.vars
      line := y.line + 1 } := by
  simp only [runLine]
  rw [System.offer_of_idle hidle (step_read_register x rfl), System.bindData_of_responses rfl rfl]
  rfl

theorem runLine_reset {y : System} (hidle : y.block.pending = []) :
    runLine .reset y = .running { y with block := { y.block with regs := Regs.reset }, line := y.line + 1 } := by
  have hs : step { y.block with pending := [.reset] } = .next { y.block with regs := Regs.reset, pending := [] } := rfl
  simp only [runLine]
  rw [System.offer_of_idle hidle hs, ← hidle]
  rfl

/-- Settles O58, line by line. -/
theorem hostLinesActOnBlock : Obligations.HostLinesActOnBlock := fun _ hidle =>
  ⟨fun _ _ => runLine_wrCommand hidle, runLine_rd hidle, runLine_reset hidle⟩

/-- An `acc W` line binds the response its access is answered with. -/
theorem runLine_accWrite {y : System} (hidle : y.block.pending = []) {off : Fin 32} {width : Nat} {e : Expr} {v : Word}
    (he : evalExpr y.vars e = some (.word v)) (r : Var) :
    ∃ z, runLine (.accWrite off width e r) y = .running z ∧ z.line = y.line + 1 ∧
      evalExpr z.vars (.var r) = some (.response (if (Access.write off width v).legal then .ok else .error)) := by
  obtain ⟨t, ht, -, -, hresp⟩ := performWrite_answers off width v { y.block with pending := [] }
  have hs : step { y.block with pending := [.access (.write off width v)] } = .next t := (step_write rfl).trans ht
  have hrun : runLine (.accWrite off width e r) y = .running (({ y with block := t } : System).bindResponse r).advance := by
    simp only [runLine, evalWord_of_evalExpr he, withValue]
    rw [System.offer_of_idle hidle hs]
  rw [System.bindResponse_of_responses hresp] at hrun
  refine ⟨_, hrun, rfl, ?_⟩
  rw [System.advance_vars, System.bind_vars, evalExpr_var_bound]
  split <;> rfl

/-- A condition on a variable that holds a response goes to the label exactly when it is the one compared with. -/
theorem runLine_ifGoto_response {z : System} {r : Var} {c : BusCode} (h : evalExpr z.vars (.var r) = some (.response c))
    (d : BusCode) (label : Nat) :
    runLine (.ifGoto (.eq (.var r) (.response d)) label) z =
      .running { z with line := if c = d then label else z.line + 1 } := by
  simp only [runLine, evalCond, h, evalExpr_response, Option.bind_some, sameValue_responses, withValue]
  by_cases hcd : c = d
  · simp [hcd]
  · simp [hcd, System.advance]

/-- Settles O59: the response bound is OK exactly when the access is legal. -/
theorem hostBranchesOnResponse : Obligations.HostBranchesOnResponse := by
  intro y off width e v r label hidle he
  obtain ⟨z, hrun, hline, hvar⟩ := runLine_accWrite hidle he r
  refine ⟨z, hrun, hline, ?_, ?_⟩
  · rw [runLine_ifGoto_response hvar]
    cases (Access.write off width v).legal <;> rfl
  · rw [runLine_ifGoto_response hvar]
    cases (Access.write off width v).legal <;> rfl

end Sys2Proof.Machine

/-! Proofs about the bit fields (40_bitfield.md): the conversion of a stored word, a word's field as it is extracted
and deposited, and from these what BFX and BFD leave and the laws they satisfy. -/

namespace Sys2Proof.Machine

/-! ## Stored words (R57) -/

/-- A byte put below a value counts in units, the value in units of 256. -/
theorem append_byte_toNat {n : Nat} (x : BitVec n) (b : Byte) : (x ++ b).toNat = x.toNat * 256 + b.toNat := by
  rw [BitVec.toNat_append, ← Nat.shiftLeft_add_eq_or_of_lt b.isLt, Nat.shiftLeft_eq]

/-- `b0 : b1 : b2 : b3` is the numeric value of the wire bytes (R32). -/
theorem bigEndianValue_four (b0 b1 b2 b3 : Byte) : bigEndianValue [b0, b1, b2, b3] = (b0 ++ b1 ++ b2 ++ b3).toNat := by
  simp [bigEndianValue, append_byte_toNat]

/-- Every word is four bytes. -/
theorem exists_word_bytes (a : Word) : ∃ b0 b1 b2 b3 : Byte, a = b0 ++ b1 ++ b2 ++ b3 := by
  refine ⟨a.extractLsb' 24 8, a.extractLsb' 16 8, a.extractLsb' 8 8, a.extractLsb' 0 8, BitVec.eq_of_toNat_eq ?_⟩
  have := a.isLt
  simp only [append_byte_toNat, BitVec.extractLsb'_toNat, Nat.shiftRight_eq_div_pow]
  omega

/-- A word passes unchanged through the 64 bits of an operand or a result. -/
theorem setWidth_64_32 (a : Word) : (a.setWidth 64).setWidth 32 = a := by
  rw [BitVec.setWidth_setWidth_of_le _ (by decide), BitVec.setWidth_eq]

/-- A big-endian host's stored word is the numeric value itself. -/
@[simp] theorem storedWord_bigEndianHost (a : Word) : storedWord true a = a := by
  simp [storedWord, lowBytes]

/-- A little-endian host's stored word has the operand's low bytes reversed (R62). -/
theorem storedWord_littleEndianHost (v : DWord) :
    storedWord false (v.setWidth 32) = byteAt v 0 ++ byteAt v 1 ++ byteAt v 2 ++ byteAt v 3 := by
  rw [storedWord, conv_congr (w := v) false (by simp [Size.bytes]), conv_littleEndianHost, byteswap,
    setWidth_64_32]

/-- The bytes of an operand whose low word is written in its bytes. -/
theorem byteAt_bytes (b0 b1 b2 b3 : Byte) :
    byteAt ((b3 ++ b2 ++ b1 ++ b0).setWidth 64) 0 = b0 ∧ byteAt ((b3 ++ b2 ++ b1 ++ b0).setWidth 64) 1 = b1 ∧
      byteAt ((b3 ++ b2 ++ b1 ++ b0).setWidth 64) 2 = b2 ∧ byteAt ((b3 ++ b2 ++ b1 ++ b0).setWidth 64) 3 = b3 := by
  have := b0.isLt
  have := b1.isLt
  have := b2.isLt
  have := b3.isLt
  simp only [← BitVec.toNat_inj, byteAt_toNat, BitVec.toNat_setWidth, append_byte_toNat]
  omega

/-- Byte reversal of a word written in its bytes. -/
theorem storedWord_bytes_littleEndianHost (b0 b1 b2 b3 : Byte) :
    storedWord false (b3 ++ b2 ++ b1 ++ b0) = b0 ++ b1 ++ b2 ++ b3 := by
  obtain ⟨h0, h1, h2, h3⟩ := byteAt_bytes b0 b1 b2 b3
  rw [← setWidth_64_32 (b3 ++ b2 ++ b1 ++ b0), storedWord_littleEndianHost, h0, h1, h2, h3]

/-- `from_be32` and `to_be32` undo each other, being one function (R57). -/
@[simp] theorem storedWord_storedWord (be : Bool) (a : Word) : storedWord be (storedWord be a) = a := by
  cases be with
  | true => simp
  | false =>
    obtain ⟨b0, b1, b2, b3, rfl⟩ := exists_word_bytes a
    rw [storedWord_bytes_littleEndianHost, storedWord_bytes_littleEndianHost]

/-- Converting the native load of four wire bytes gives their numeric value (R33, R57). -/
theorem storedWord_hostLoad (be : Bool) (b0 b1 b2 b3 : Byte) :
    storedWord be ((hostLoad be [b0, b1, b2, b3]).setWidth 32) = b0 ++ b1 ++ b2 ++ b3 := by
  have hload (c0 c1 c2 c3 : Byte) :
      (BitVec.ofNat 64 (bigEndianValue [c0, c1, c2, c3])).setWidth 32 = c0 ++ c1 ++ c2 ++ c3 := by
    rw [bigEndianValue_four, BitVec.ofNat_toNat, setWidth_64_32]
  cases be with
  | true => exact (storedWord_bigEndianHost _).trans (hload b0 b1 b2 b3)
  | false => exact (congrArg _ (hload b3 b2 b1 b0)).trans (storedWord_bytes_littleEndianHost b0 b1 b2 b3)

/-- The wire bytes of an operand have the numeric value its low word converts to. -/
theorem wireValue_eq_storedWord (be : Bool) (v : DWord) : wireValue be v = (storedWord be (v.setWidth 32)).toNat := by
  cases be with
  | true => simp [wireValue, hostStore, bigEndianValue_bigEndianBytes]
  | false =>
    rw [storedWord_littleEndianHost, ← bigEndianValue_four]
    rfl

/-- Settles O37, by the host's byte order. -/
theorem storedWordIsWireValue : Obligations.StoredWordIsWireValue :=
  fun be => ⟨storedWord_hostLoad be, storedWord_storedWord be⟩

/-! ## The field of a word (R56)

The field is `bits` wide and its lowest bit is `lsb`. -/

theorem ones_getLsbD (n k : Nat) : (ones n).getLsbD k = (decide (k < 32) && decide (k < n)) := by
  simp [ones, BitVec.getLsbD_ofNat, Nat.testBit_two_pow_sub_one]

theorem fieldMask_getLsbD (lsb bits : Nat) {k : Nat} (hk : k < 32) :
    (fieldMask lsb bits).getLsbD k = decide (lsb ≤ k ∧ k < lsb + bits) := by
  rw [fieldMask, BitVec.getLsbD_shiftLeft, ones_getLsbD, Bool.eq_iff_iff]
  simp only [Bool.and_eq_true, Bool.not_eq_true', decide_eq_true_eq, decide_eq_false_iff_not]
  omega

/-- A bit of the field comes from B's low bits, every other bit from the old value (R59). -/
theorem deposit_getLsbD (lsb bits : Nat) (v b : Word) {k : Nat} (hk : k < 32) :
    (deposit lsb bits v b).getLsbD k =
      if lsb ≤ k ∧ k < lsb + bits then b.getLsbD (k - lsb) else v.getLsbD k := by
  simp only [deposit, BitVec.getLsbD_or, BitVec.getLsbD_and, BitVec.getLsbD_not, BitVec.getLsbD_shiftLeft,
    fieldMask_getLsbD _ _ hk, ones_getLsbD]
  by_cases hfield : lsb ≤ k ∧ k < lsb + bits
  · have hoffset : ¬ k < lsb ∧ k - lsb < bits ∧ k - lsb < 32 := by omega
    simp [hfield, hk, hoffset]
  · have hshifted : k < lsb ∨ ¬ k - lsb < bits := by omega
    rcases hshifted with h | h
    · simp [hfield, hk, h]
    · simp [hfield, hk, h]

/-- An extracted field as a number (R58). -/
theorem extractField_toNat (lsb : Nat) {bits : Nat} (hbits : bits ≤ 32) (v : Word) :
    ((v.extractLsb' lsb bits).setWidth 64).toNat = v.toNat / 2 ^ lsb % 2 ^ bits := by
  rw [BitVec.toNat_setWidth_of_le (by omega), BitVec.extractLsb'_toNat, Nat.shiftRight_eq_div_pow]

/-- Extracting the field just deposited gives B cut to it. -/
theorem deposit_field {lsb bits : Nat} (hfit : lsb + bits ≤ 32) (v b : Word) :
    (deposit lsb bits v b).toNat / 2 ^ lsb % 2 ^ bits = b.toNat % 2 ^ bits := by
  apply Nat.eq_of_testBit_eq
  intro j
  rw [Nat.testBit_mod_two_pow, Nat.testBit_mod_two_pow, Nat.testBit_div_two_pow]
  by_cases hj : j < bits
  · have hbit := deposit_getLsbD lsb bits v b (k := lsb + j) (by omega)
    rw [if_pos (by omega), Nat.add_sub_cancel_left] at hbit
    rw [Nat.add_comm j lsb]
    exact congrArg _ hbit
  · simp [hj]

/-- Outside the mask the deposit changes nothing. -/
theorem deposit_and_not_fieldMask (lsb bits : Nat) (v b : Word) :
    deposit lsb bits v b &&& ~~~(fieldMask lsb bits) = v &&& ~~~(fieldMask lsb bits) := by
  apply BitVec.eq_of_getLsbD_eq
  intro k hk
  rw [BitVec.getLsbD_and, BitVec.getLsbD_and, BitVec.getLsbD_not, fieldMask_getLsbD _ _ hk, deposit_getLsbD _ _ _ _ hk]
  by_cases hfield : lsb ≤ k ∧ k < lsb + bits
  · simp [hfield]
  · simp [hfield]

/-- Depositing what the field holds changes nothing. -/
theorem deposit_extractField (lsb bits : Nat) (v : Word) :
    deposit lsb bits v (((v.extractLsb' lsb bits).setWidth 64).setWidth 32) = v := by
  apply BitVec.eq_of_getLsbD_eq
  intro k hk
  rw [deposit_getLsbD _ _ _ _ hk]
  split
  · next hfield =>
    have hoffset : k - lsb < bits ∧ k - lsb < 32 := by omega
    simp [Nat.add_sub_cancel' hfield.1, hoffset]
  · rfl

/-- Deposits into disjoint fields commute. -/
theorem deposit_comm {lsb bits lsb' bits' : Nat} (hdisj : lsb + bits ≤ lsb' ∨ lsb' + bits' ≤ lsb) (v b b' : Word) :
    deposit lsb' bits' (deposit lsb bits v b) b' = deposit lsb bits (deposit lsb' bits' v b') b := by
  apply BitVec.eq_of_getLsbD_eq
  intro k hk
  simp only [deposit_getLsbD _ _ _ _ hk]
  by_cases hfield : lsb ≤ k ∧ k < lsb + bits
  · have hother : ¬ (lsb' ≤ k ∧ k < lsb' + bits') := by omega
    simp only [if_pos hfield, if_neg hother]
  · simp only [if_neg hfield]

/-- A deposit into the whole word gives B. -/
theorem deposit_whole (v b : Word) : deposit 0 32 v b = b := by
  apply BitVec.eq_of_getLsbD_eq
  intro k hk
  rw [deposit_getLsbD _ _ _ _ hk, if_pos (by omega), Nat.sub_zero]

/-! ## What BFX and BFD leave (R58 to R60) -/

/-- BFX of a legal field. -/
theorem bfx_of_legal (be : Bool) {pos bits : Nat} (h : bits ≤ pos + 1) (a : Word) :
    bfx be pos bits a = done noFlags (((storedWord be a).extractLsb' (pos + 1 - bits) bits).setWidth 64) :=
  if_neg (by omega)

/-- BFD of a legal field. -/
theorem bfd_of_legal (be : Bool) {pos bits : Nat} (h : bits ≤ pos + 1) (a b : Word) :
    bfd be pos bits a b =
      done noFlags ((storedWord be (deposit (pos + 1 - bits) bits (storedWord be a) b)).setWidth 64) :=
  if_neg (by omega)

/-- A command that succeeds without a flag, in the terms claims are stated in. -/
theorem exec_of_done {i : Instr} {s : State} {res : DWord} (h : completionOf i s = done noFlags res) :
    exec i s = .next (completedWith s 1 false false res) := by
  rw [exec_eq, h, finish_eq_completedWith]
  rfl

/-- A command that fails, in the terms claims are stated in. -/
theorem exec_of_failed {i : Instr} {s : State} {code : Code} (h : completionOf i s = failed code) :
    exec i s = .next (failedWith s (codeValue code)) := by
  rw [exec_eq, h, finish_failed]

/-- Settles O36: the check on the geometry comes first in both commands. -/
theorem badFieldCompletes : Obligations.BadFieldCompletes :=
  fun _ _ _ h => ⟨exec_of_failed (code := .badField) (if_pos h), exec_of_failed (code := .badField) (if_pos h)⟩

/-- Settles O34: the field is cut from the wire value, which the stored word converts to. -/
theorem bfxExtractsField : Obligations.BfxExtractsField := by
  intro s pos bits hpos _ hbits
  refine ⟨_, ?_, exec_of_done (bfx_of_legal s.params.hostBe hbits _)⟩
  rw [extractField_toNat _ (by omega), wireValue_eq_storedWord]

/-- Settles O35: the wire value of the new stored word is the deposit. -/
theorem bfdDepositsField : Obligations.BfdDepositsField := by
  intro s pos bits hpos _ hbits
  refine ⟨_, ?_, fun k hk => ?_, exec_of_done (bfd_of_legal s.params.hostBe hbits _ _)⟩
  · rw [BitVec.toNat_setWidth_of_le (by decide)]
    exact BitVec.isLt _
  · rw [wireValue_eq_storedWord, wireValue_eq_storedWord, setWidth_64_32, storedWord_storedWord]
    have hfield : (pos + 1 - bits ≤ k ∧ k < pos + 1 - bits + bits) ↔ (pos + 1 - bits ≤ k ∧ k ≤ pos) := by omega
    simp only [← hfield]
    exact deposit_getLsbD (pos + 1 - bits) bits _ s.operandB hk

/-- Settles O38: a flag is a field one bit wide. -/
theorem oneBitFieldIsFlag : Obligations.OneBitFieldIsFlag := by
  intro s pos hpos
  refine ⟨?_, ?_⟩
  · obtain ⟨res, hres, hexec⟩ := bfxExtractsField s pos 1 hpos (by decide) (by omega)
    refine ⟨res, BitVec.eq_of_toNat_eq ?_, hexec⟩
    rw [hres, Nat.add_sub_cancel, Nat.testBit_eq_decide_div_mod_eq]
    rcases Nat.mod_two_eq_zero_or_one (wireValue s.params.hostBe s.operandA / 2 ^ pos) with h | h
    · simp [h]
    · simp [h]
  · obtain ⟨res, -, hbits, hexec⟩ := bfdDepositsField s pos 1 hpos (by decide) (by omega)
    refine ⟨res, fun k hk => ?_, hexec⟩
    have hflag : (pos ≤ k ∧ k ≤ pos) ↔ k = pos := by omega
    rw [hbits k hk, Nat.add_sub_cancel]
    simp only [hflag]
    split
    · next h => rw [h, Nat.sub_self]
    · rfl

/-! ## The laws (R61) -/

/-- `conv_4` of a word is its stored word, zero-extended (R63). -/
theorem storedWord_setWidth_64 (be : Bool) (a : Word) :
    (storedWord be a).setWidth 64 = conv be .four (a.setWidth 64) := by
  cases be with
  | true => simp [lowBytes]
  | false => simp [storedWord, byteswap]

/-- RES[31:0] of a legal BFD. -/
theorem bfd_res_low (be : Bool) {pos bits : Nat} (h : bits ≤ pos + 1) (a b : Word) :
    (bfd be pos bits a b).res.setWidth 32 = storedWord be (deposit (pos + 1 - bits) bits (storedWord be a) b) := by
  rw [bfd_of_legal be h, done_res, setWidth_64_32]

/-- Settles O39: laws 1 to 4 are those of `deposit` on numeric values, and laws 5 and 6 are the whole word as field. -/
theorem bitFieldLaws : Obligations.BitFieldLaws := by
  intro be pos bits a b hpos _ hbits get set
  have hget (w : Word) : get w = ((storedWord be w).extractLsb' (pos + 1 - bits) bits).setWidth 64 :=
    congrArg Completion.res (bfx_of_legal be hbits w)
  have hset (w v : Word) : set w v = storedWord be (deposit (pos + 1 - bits) bits (storedWord be w) v) :=
    bfd_res_low be hbits w v
  refine ⟨?_, ?_, ?_, ?_, ?_, ?_⟩
  · rw [hget, hset, storedWord_storedWord, extractField_toNat _ (by omega), deposit_field (by omega)]
  · rw [hset, storedWord_storedWord, deposit_and_not_fieldMask]
  · rw [hset, hget, deposit_extractField, storedWord_storedWord]
  · intro pos' bits' b' _ _ hbits' hdisj set'
    have hset' (w v : Word) : set' w v = storedWord be (deposit (pos' + 1 - bits') bits' (storedWord be w) v) :=
      bfd_res_low be hbits' w v
    simp only [hset, hset', storedWord_storedWord]
    rw [deposit_comm (by omega)]
  · rw [bfx_of_legal be (by decide), done_res, ← storedWord_setWidth_64]
    simp
  · rw [bfd_of_legal be (by decide), done_res, deposit_whole, storedWord_setWidth_64]

end Sys2Proof.Machine

/-! Proofs about the endian converter (41_endian.md): wire bytes and the value the host holds determine each other,
`conv_n` is a native load of the value's bytes most significant first, and from these the bytes of `byteswap_n`, what
TOBE and FROMBE leave, and what the host's stores and loads make of it. -/

namespace Sys2Proof

theorem Size.bytes_le_eight (n : Size) : n.bytes ≤ 8 := by cases n <;> decide

end Sys2Proof

namespace Sys2Proof.Machine

/-! ## Bytes and the value they spell (R11, R32) -/

/-- The value of wire bytes as a number in base 256, its least significant digit first. -/
theorem bigEndianValue_eq_ofDigits (bs : List Byte) :
    bigEndianValue bs = Nat.ofDigits 256 (bs.reverse.map BitVec.toNat) := by
  rw [Nat.ofDigits_eq_foldr, List.foldr_map, List.foldr_reverse]
  simp only [bigEndianValue, Nat.cast_id, Nat.add_comm, Nat.mul_comm]

/-- The bytes of a list are digits in base 256. -/
theorem toNat_lt_256_of_mem_map {bs : List Byte} {d : Nat} (h : d ∈ bs.map BitVec.toNat) : d < 256 := by
  obtain ⟨b, -, rfl⟩ := List.mem_map.1 h
  exact b.isLt

theorem bigEndianValue_lt (bs : List Byte) : bigEndianValue bs < 2 ^ (8 * bs.length) := by
  have h := Nat.ofDigits_lt_base_pow_length (b := 256) (by decide) fun _ => toNat_lt_256_of_mem_map (bs := bs.reverse)
  rw [← bigEndianValue_eq_ofDigits, List.length_map, List.length_reverse] at h
  rwa [Nat.pow_mul]

/-- As many bytes with the same value are the same bytes. -/
theorem eq_of_bigEndianValue_eq {bs cs : List Byte} (hlen : bs.length = cs.length)
    (h : bigEndianValue bs = bigEndianValue cs) : bs = cs := by
  rw [bigEndianValue_eq_ofDigits, bigEndianValue_eq_ofDigits] at h
  have hdigits := Nat.ofDigits_inj_of_len_eq (by decide) (by simpa using hlen)
    (fun _ => toNat_lt_256_of_mem_map) (fun _ => toNat_lt_256_of_mem_map) h
  exact List.reverse_injective (List.map_injective_iff.2 (fun _ _ => BitVec.eq_of_toNat_eq) hdigits)

/-- At most eight bytes fit a 64-bit value. -/
theorem toNat_ofNat_bigEndianValue {bs : List Byte} (h : bs.length ≤ 8) :
    (BitVec.ofNat 64 (bigEndianValue bs)).toNat = bigEndianValue bs := by
  rw [BitVec.toNat_ofNat, Nat.mod_eq_of_lt]
  exact (bigEndianValue_lt bs).trans_le (Nat.pow_le_pow_right (by decide) (by omega))

/-- The bytes of the value that at most eight bytes spell are those bytes. -/
theorem bigEndianBytes_bigEndianValue {bs : List Byte} (h : bs.length ≤ 8) :
    bigEndianBytes bs.length (BitVec.ofNat 64 (bigEndianValue bs)) = bs := by
  apply eq_of_bigEndianValue_eq (bigEndianBytes_length _ _)
  rw [bigEndianValue_bigEndianBytes, toNat_ofNat_bigEndianValue h, Nat.mod_eq_of_lt (bigEndianValue_lt bs)]

theorem getElem_bigEndianBytes {n i : Nat} (v : DWord) (h : i < (bigEndianBytes n v).length) :
    (bigEndianBytes n v)[i] = byteAt v (n - 1 - i) := by
  simp [bigEndianBytes]

/-! ## The host's byte order (R33) -/

/-- Bytes between wire order and the order of significance in the host: kept by a big-endian host, reversed by a
little-endian one. -/
def hostOrder (be : Bool) (bs : List Byte) : List Byte := if be then bs else bs.reverse

theorem hostLoad_eq_hostOrder (be : Bool) (bs : List Byte) :
    hostLoad be bs = BitVec.ofNat 64 (bigEndianValue (hostOrder be bs)) := rfl

theorem hostStore_eq_hostOrder (be : Bool) (n : Nat) (v : DWord) :
    hostStore be n v = hostOrder be (bigEndianBytes n v) := rfl

@[simp] theorem hostOrder_hostOrder (be : Bool) (bs : List Byte) : hostOrder be (hostOrder be bs) = bs := by
  cases be <;> simp [hostOrder]

@[simp] theorem hostOrder_length (be : Bool) (bs : List Byte) : (hostOrder be bs).length = bs.length := by
  cases be <;> simp [hostOrder]

/-- Counted from the least significant end, byte `k` of the bytes in the host's order is byte `k` of the value on a
big-endian host, and byte `n − 1 − k` on a little-endian one. -/
theorem getElem_hostOrder_bigEndianBytes (be : Bool) {n k : Nat} (v : DWord) (hk : k < n)
    (h : n - 1 - k < (hostOrder be (bigEndianBytes n v)).length) :
    (hostOrder be (bigEndianBytes n v))[n - 1 - k] = byteAt v (if be then k else n - 1 - k) := by
  have hback : n - 1 - (n - 1 - k) = k := by omega
  cases be with
  | true => simp [hostOrder, getElem_bigEndianBytes, hback]
  | false => simp [hostOrder, getElem_bigEndianBytes, hback]

/-- The bytes of a loaded value, most significant first. -/
theorem bigEndianBytes_hostLoad (be : Bool) {bs : List Byte} (h : bs.length ≤ 8) :
    bigEndianBytes bs.length (hostLoad be bs) = hostOrder be bs := by
  have hbytes := bigEndianBytes_bigEndianValue (bs := hostOrder be bs) (by rwa [hostOrder_length])
  rwa [hostOrder_length] at hbytes

theorem hostLoad_lt (be : Bool) {bs : List Byte} (h : bs.length ≤ 8) :
    (hostLoad be bs).toNat < 2 ^ (8 * bs.length) := by
  have hlt := bigEndianValue_lt (hostOrder be bs)
  rw [hostLoad_eq_hostOrder, toNat_ofNat_bigEndianValue (by rwa [hostOrder_length])]
  rwa [hostOrder_length] at hlt

/-- A native store puts its bytes at consecutive addresses. -/
theorem Memory.read_nativeStore_of_inside {m : Memory} (h : m.wf) (be : Bool) {n k : Nat} (p : Nat) (v : DWord)
    (hk : k < (hostStore be n v).length) : (m.nativeStore be n p v).read (p + k) = (hostStore be n v)[k] := by
  unfold Memory.nativeStore
  rw [Memory.read_writeBytes h, if_pos (Nat.le_add_right p k), Nat.add_sub_cancel_left,
    List.getElem?_eq_getElem hk, Option.getD_some]

/-! ## `conv_n` (R62, R63) -/

/-- `byteswap_n(v)` is spelled by `v`'s low n bytes, the least significant first (R62). -/
theorem byteswap_toNat (n : Size) (v : DWord) :
    (byteswap n v).toNat = bigEndianValue (bigEndianBytes n.bytes v).reverse := by
  cases n <;> simp (disch := decide) [byteswap, bigEndianBytes, bigEndianValue, Size.bytes, List.range_succ,
    append_byte_toNat, BitVec.toNat_setWidth_of_le, -BitVec.toNat_setWidth]

/-- `conv_n(v)` is what the host loads from `v`'s low n bytes written most significant first. -/
theorem conv_eq_hostLoad (be : Bool) (n : Size) (v : DWord) : conv be n v = hostLoad be (bigEndianBytes n.bytes v) := by
  apply BitVec.eq_of_toNat_eq
  rw [hostLoad_eq_hostOrder, toNat_ofNat_bigEndianValue (by simp [n.bytes_le_eight])]
  cases be with
  | true => exact (lowBytes_toNat n v).trans (bigEndianValue_bigEndianBytes n.bytes v).symm
  | false => exact byteswap_toNat n v

/-- The bytes of `conv_n(v)` are `v`'s in the host's order. -/
theorem bigEndianBytes_conv (be : Bool) (n : Size) (v : DWord) :
    bigEndianBytes n.bytes (conv be n v) = hostOrder be (bigEndianBytes n.bytes v) := by
  have h := bigEndianBytes_hostLoad be (bs := bigEndianBytes n.bytes v) (by simp [n.bytes_le_eight])
  rwa [bigEndianBytes_length, ← conv_eq_hostLoad] at h

/-- A store of `conv_n(v)` writes `v`'s bytes most significant first (R66). -/
theorem hostStore_conv (be : Bool) (n : Size) (v : DWord) :
    hostStore be n.bytes (conv be n v) = bigEndianBytes n.bytes v := by
  rw [hostStore_eq_hostOrder, bigEndianBytes_conv, hostOrder_hostOrder]

/-- `conv_n` of a load gives the numeric value of the wire bytes (R66). -/
theorem conv_hostLoad (be : Bool) (n : Size) {bs : List Byte} (h : bs.length = n.bytes) :
    (conv be n (hostLoad be bs)).toNat = bigEndianValue bs := by
  have hlen : bs.length ≤ 8 := h ▸ n.bytes_le_eight
  rw [conv_eq_hostLoad, ← h, bigEndianBytes_hostLoad be hlen, hostLoad_eq_hostOrder, hostOrder_hostOrder,
    toNat_ofNat_bigEndianValue hlen]

/-- Twice `conv_n` gives the low n bytes, the host's order being applied twice. -/
theorem conv_conv (be : Bool) (n : Size) (v : DWord) :
    (conv be n (conv be n v)).toNat = v.toNat % 2 ^ (8 * n.bytes) := by
  rw [conv_eq_hostLoad be n v, conv_hostLoad be n (bigEndianBytes_length _ _), bigEndianValue_bigEndianBytes]

/-- Above a value the bytes are 0. -/
theorem byteAt_of_lt {v : DWord} {n k : Nat} (h : v.toNat < 2 ^ (8 * n)) (hk : n ≤ k) : byteAt v k = 0#8 := by
  apply BitVec.eq_of_toNat_eq
  have hlt : v.toNat < 2 ^ (8 * k) := h.trans_le (Nat.pow_le_pow_right (by decide) (by omega))
  rw [byteAt_toNat, Nat.div_eq_of_lt hlt]
  rfl

/-- The bytes of `conv_n(v)`: `v`'s low n bytes in the host's order, and zeros above. -/
theorem byteAt_conv (be : Bool) (n : Size) (v : DWord) (k : Nat) :
    byteAt (conv be n v) k = if k < n.bytes then byteAt v (if be then k else n.bytes - 1 - k) else 0#8 := by
  split
  · next hk =>
    have hi : n.bytes - 1 - k < n.bytes := by omega
    have hback : n.bytes - 1 - (n.bytes - 1 - k) = k := by omega
    have hbyte := List.getElem_of_eq (bigEndianBytes_conv be n v) (i := n.bytes - 1 - k) (by simpa using hi)
    rwa [getElem_bigEndianBytes, hback, getElem_hostOrder_bigEndianBytes be v hk] at hbyte
  · next hk =>
    have hlt := hostLoad_lt be (bs := bigEndianBytes n.bytes v) (by simp [n.bytes_le_eight])
    rw [bigEndianBytes_length, ← conv_eq_hostLoad] at hlt
    exact byteAt_of_lt hlt (by omega)

/-- Settles O40: `byteswap_n` is `conv_n` on a little-endian host. -/
theorem byteswapReversesBytes : Obligations.ByteswapReversesBytes :=
  fun n v => ⟨fun k _ => byteAt_conv false n v k, conv_conv false n v⟩

/-! ## TOBE and FROMBE (R64 to R66) -/

/-- Settles O41: both commands succeed with `conv_n` of A. -/
theorem endianCommandsConvert : Obligations.EndianCommandsConvert :=
  fun s n => ⟨_, fun k _ => byteAt_conv s.params.hostBe n s.operandA k, exec_of_done (i := .tobe n) rfl,
    exec_of_done (i := .frombe n) rfl⟩

/-- Settles O43: storing undoes the conversion's byte order, and the conversion undoes a load's. -/
theorem wireBytesAreHostIndependent : Obligations.WireBytesAreHostIndependent := by
  refine fun s n m p hm => ⟨⟨_, exec_eq _ s, fun k hk => ?_⟩, fun hload => ⟨_, exec_eq _ s, ?_⟩⟩
  · rw [finish_result, Memory.read_nativeStore_of_inside hm _ _ _ (by simpa using hk)]
    simp only [completionOf, done_res, hostStore_conv, getElem_bigEndianBytes]
  · rw [finish_result, completionOf, done_res, hload]
    exact conv_hostLoad _ n (by simp)

end Sys2Proof.Machine

/-! Proofs about the fixed-point converter (42_fixedpoint.md): the value of a binary64 pattern, rounding to an integer
and to a binary64 integer, the container, and from these what TOINT and TOFP leave and the laws of R75. -/

namespace Sys2Proof.Machine

/-! ## binary64 patterns (R68) -/

/-- `F64` of a pattern given by its sign, exponent and fraction fields. -/
theorem f64Value_append (s : Bool) (e : BitVec 11) (f : BitVec 52) :
    f64Value (BitVec.ofBool s ++ e ++ f) =
      if e.toNat = 2047 then (if f.toNat ≠ 0 then .nan else .inf s)
      else if e.toNat = 0 then .finite (signed s f.toNat) (-1074)
      else .finite (signed s (2 ^ 52 + f.toNat)) ((e.toNat : Int) - 1075) := by
  have hsign : (BitVec.ofBool s ++ e ++ f).getLsbD 63 = s := by
    rw [BitVec.append_assoc, BitVec.getLsbD_cast, BitVec.getLsbD_append]
    simp
  have hexp : (BitVec.ofBool s ++ e ++ f).extractLsb' 52 11 = e := by
    rw [BitVec.extractLsb'_append_eq_of_le (by decide)]
    exact BitVec.extractLsb'_append_eq_right
  have hfrac : (BitVec.ofBool s ++ e ++ f).extractLsb' 0 52 = f := BitVec.extractLsb'_append_eq_right
  unfold f64Value
  rw [hsign, hexp, hfrac]

theorem signed_natAbs (m : Nat) (s : Bool) : (signed s m).natAbs = m := by cases s <;> simp [signed]

theorem cast_signed (s : Bool) (m : Nat) : (signed s m : ℚ) = (-1) ^ s.toNat * (m : ℚ) := by
  cases s <;> simp [signed]

/-- The integer significand of a finite pattern has at most 53 bits. -/
theorem abs_sig_lt_of_f64Value {a : DWord} {sig exp : Int} (h : f64Value a = .finite sig exp) :
    |sig| < 2 ^ 53 := by
  have hf := (a.extractLsb' 0 52).isLt
  simp only [f64Value] at h
  split at h
  · split at h <;> cases h
  · split at h
    · cases h
      rw [Int.abs_eq_natAbs, signed_natAbs]
      omega
    · cases h
      rw [Int.abs_eq_natAbs, signed_natAbs]
      omega

/-- Settles O44, by the pattern's fields. -/
theorem binary64Values : Obligations.Binary64Values := by
  intro s e f x
  have hx : f64Value x = _ := f64Value_append s e f
  refine ⟨fun he hf => ?_, fun he hf => ?_, fun he => ?_, fun hn hz => ?_⟩
  · have hf : f.toNat ≠ 0 := fun h => hf (BitVec.eq_of_toNat_eq h)
    rw [hx, if_pos he, if_pos hf]
  · rw [hx, if_pos he, hf, if_neg (by simp)]
  · refine ⟨_, _, by rw [hx, if_neg (by omega), if_pos he], ?_⟩
    rw [dyadic, cast_signed, zpow_neg, div_eq_mul_inv]
    rfl
  · refine ⟨_, _, by rw [hx, if_neg hn, if_neg hz], ?_⟩
    rw [dyadic, cast_signed]
    push_cast
    rfl

/-! ## Exact scaling (R72) -/

/-- Settles O46: the exponent `exp + r` is a power above or below the line, as its sign says. -/
theorem scalingIsExact : Obligations.ScalingIsExact := by
  intro sig exp r
  have hexp : ((exp + r).toNat : Int) - (-(exp + r)).toNat = exp + r := by omega
  have hpow : (2 : ℚ) ^ exp * 2 ^ r = 2 ^ (exp + r).toNat / 2 ^ (-(exp + r)).toNat := by
    rw [← zpow_natCast, ← zpow_natCast, ← zpow_natCast, ← zpow_sub₀ two_ne_zero, ← zpow_add₀ two_ne_zero, hexp]
  simp only [Scaled.toRat, scale, dyadic, pow2_eq]
  push_cast
  rw [mul_assoc, hpow, mul_div_assoc]

/-! ## Rounding to an integer (R69) -/

theorem RoundsTo.abs_sub_le {tie : Tie} {t : ℚ} {i : Int} (h : RoundsTo tie t i) : |(i : ℚ) - t| ≤ 1 / 2 := by
  rcases h with h | ⟨h, -⟩
  · exact h.le
  · exact h.le

/-- Halfway between `k` and `k + 1`, the lower one is farther from zero than the middle exactly below zero. -/
theorem abs_half_lt_abs_iff (k : Int) : |(k : ℚ) + 1 / 2| < |(k : ℚ)| ↔ k < 0 := by
  have hsq : ((k : ℚ) + 1 / 2) ^ 2 < (k : ℚ) ^ 2 ↔ 4 * k + 1 < 0 := by
    have : 4 * k + 1 < 0 ↔ (4 * k + 1 : ℚ) < 0 := by exact_mod_cast Iff.rfl
    rw [this]
    constructor <;> intro h <;> linarith
  rw [← sq_lt_sq, hsq]
  omega

/-- The upper one is farther from zero than the middle exactly from zero up. -/
theorem abs_half_lt_abs_succ_iff (k : Int) : |(k : ℚ) + 1 / 2| < |(k : ℚ) + 1| ↔ 0 ≤ k := by
  have h := abs_half_lt_abs_iff (-(k + 1))
  push_cast at h
  have hhalf : -((k : ℚ) + 1) + 1 / 2 = -((k : ℚ) + 1 / 2) := by ring
  rw [hhalf, abs_neg, abs_neg] at h
  rw [h]
  omega

/-- Of two neighbours at a tie only one is chosen. -/
theorem not_lt_of_roundsTo {tie : Tie} {t : ℚ} {i j : Int} (hi : RoundsTo tie t i) (hj : RoundsTo tie t j) :
    ¬ i < j := by
  intro hlt
  obtain ⟨hi₁, -⟩ := abs_le.1 hi.abs_sub_le
  obtain ⟨-, hj₂⟩ := abs_le.1 hj.abs_sub_le
  have hle : (i : ℚ) + 1 ≤ j := by exact_mod_cast hlt
  have ht : t = i + 1 / 2 := by linarith
  have hji : j = i + 1 := by
    have : (j : ℚ) = i + 1 := by linarith
    exact_mod_cast this
  subst hji ht
  obtain ⟨-, hi⟩ := hi.resolve_left fun h => by linarith [(abs_lt.1 h).1]
  obtain ⟨-, hj⟩ := hj.resolve_left fun h => by push_cast at h; linarith [(abs_lt.1 h).2]
  cases tie with
  | away =>
    have hneg := (abs_half_lt_abs_iff i).1 hi
    have hpos := (abs_half_lt_abs_succ_iff i).1 (by exact_mod_cast hj)
    omega
  | even =>
    simp only at hi hj
    omega

theorem RoundsTo.unique {tie : Tie} {t : ℚ} {i j : Int} (hi : RoundsTo tie t i) (hj : RoundsTo tie t j) : i = j :=
  le_antisymm (Int.not_lt.1 (not_lt_of_roundsTo hj hi)) (Int.not_lt.1 (not_lt_of_roundsTo hi hj))

theorem roundsTo_self (tie : Tie) (i : Int) : RoundsTo tie i i := .inl (by norm_num)

/-- The choice between `k` and `k + 1` at a tie. -/
theorem roundsTo_half (tie : Tie) (k : Int) :
    RoundsTo tie (k + 1 / 2) (match tie with
      | .away => if 0 ≤ k then k + 1 else k
      | .even => if k % 2 = 0 then k else k + 1) := by
  have hlow : |(k : ℚ) - (k + 1 / 2)| = 1 / 2 := by norm_num [abs_of_neg]
  have hhigh : |((k + 1 : Int) : ℚ) - (k + 1 / 2)| = 1 / 2 := by
    push_cast
    norm_num [abs_of_pos]
  cases tie with
  | away =>
    simp only
    split
    · next h => exact .inr ⟨hhigh, by exact_mod_cast (abs_half_lt_abs_succ_iff k).2 h⟩
    · next h => exact .inr ⟨hlow, (abs_half_lt_abs_iff k).2 (Int.not_le.1 h)⟩
  | even =>
    simp only
    split
    · next h => exact .inr ⟨hlow, h⟩
    · next h => exact .inr ⟨hhigh, by simp only; omega⟩

/-- Below the middle the lower neighbour is nearest. -/
theorem roundsTo_floor (tie : Tie) (k : Int) {φ : ℚ} (h₀ : 0 ≤ φ) (h₁ : φ < 1 / 2) : RoundsTo tie (k + φ) k :=
  .inl (abs_lt.2 ⟨by linarith, by linarith⟩)

/-- Above the middle the upper neighbour is nearest. -/
theorem roundsTo_floor_succ (tie : Tie) (k : Int) {φ : ℚ} (h₀ : 1 / 2 < φ) (h₁ : φ < 1) :
    RoundsTo tie (k + φ) (k + 1) := by
  refine .inl (abs_lt.2 ?_)
  push_cast
  exact ⟨by linarith, by linarith⟩

/-- The part of an exact rational above its floor. -/
def Scaled.fract (t : Scaled) : ℚ := (t.num % pow2 t.den : Int) / (pow2 t.den : Int)

theorem Scaled.toRat_eq_floor_add_fract (t : Scaled) : t.toRat = (t.num / pow2 t.den : Int) + t.fract := by
  have hunit : ((pow2 t.den : Int) : ℚ) ≠ 0 := by exact_mod_cast (pow2_pos t.den).ne'
  have hnum : (t.num : ℚ) = (t.num / pow2 t.den : Int) * (pow2 t.den : Int) + (t.num % pow2 t.den : Int) := by
    exact_mod_cast (Int.ediv_mul_add_emod t.num (pow2 t.den)).symm
  have hpow : (2 : ℚ) ^ t.den = (pow2 t.den : Int) := by
    rw [pow2_eq]
    push_cast
    rfl
  rw [Scaled.toRat, Scaled.fract, hpow, hnum, add_div, mul_div_cancel_right₀ _ hunit]

theorem Scaled.fract_nonneg_and_lt_one (t : Scaled) : 0 ≤ t.fract ∧ t.fract < 1 := by
  have hunit : (0 : ℚ) < (pow2 t.den : Int) := by exact_mod_cast pow2_pos t.den
  have hnonneg := Int.emod_nonneg t.num (pow2_pos t.den).ne'
  refine ⟨div_nonneg (by exact_mod_cast hnonneg) hunit.le, (div_lt_one hunit).2 ?_⟩
  exact_mod_cast Int.emod_lt_of_pos t.num (pow2_pos t.den)

/-- The machine's comparison of twice the remainder with the unit is that of the part above the floor with 1/2. -/
theorem Scaled.fract_lt_half_iff (t : Scaled) : t.fract < 1 / 2 ↔ 2 * (t.num % pow2 t.den) < pow2 t.den := by
  have hunit : (0 : ℚ) < (pow2 t.den : Int) := by exact_mod_cast pow2_pos t.den
  rw [Scaled.fract, div_lt_div_iff₀ hunit two_pos, one_mul, mul_comm]
  exact_mod_cast Iff.rfl

theorem Scaled.half_lt_fract_iff (t : Scaled) : 1 / 2 < t.fract ↔ pow2 t.den < 2 * (t.num % pow2 t.den) := by
  have hunit : (0 : ℚ) < (pow2 t.den : Int) := by exact_mod_cast pow2_pos t.den
  rw [Scaled.fract, div_lt_div_iff₀ two_pos hunit, one_mul, mul_comm]
  exact_mod_cast Iff.rfl

/-- At a tie the rational is positive exactly when its floor is not negative. -/
theorem Scaled.num_pos_iff_of_tie {t : Scaled} (h : 2 * (t.num % pow2 t.den) = pow2 t.den) :
    t.num > 0 ↔ 0 ≤ t.num / pow2 t.den := by
  have hunit := pow2_pos t.den
  have hne : t.num ≠ 0 := fun h0 => by
    rw [h0, Int.zero_emod] at h
    omega
  rw [Int.ediv_nonneg_iff_of_pos hunit]
  omega

theorem roundsTo_roundTie (tie : Tie) (t : Scaled) : RoundsTo tie t.toRat (roundTie tie t) := by
  obtain ⟨h₀, h₁⟩ := t.fract_nonneg_and_lt_one
  rw [t.toRat_eq_floor_add_fract]
  simp only [roundTie]
  split
  · next hlt => exact roundsTo_floor tie _ h₀ (t.fract_lt_half_iff.2 hlt)
  · next hlt =>
    split
    · next hgt => exact roundsTo_floor_succ tie _ (t.half_lt_fract_iff.2 hgt) h₁
    · next hgt =>
      have hhalf : t.fract = 1 / 2 :=
        le_antisymm (not_lt.1 (mt t.half_lt_fract_iff.1 hgt)) (not_lt.1 (mt t.fract_lt_half_iff.1 hlt))
      have hround := roundsTo_half tie (t.num / pow2 t.den)
      rw [hhalf]
      cases tie with
      | away => simpa only [Scaled.num_pos_iff_of_tie (by omega : 2 * (t.num % pow2 t.den) = pow2 t.den)] using hround
      | even => exact hround

/-- Settles O45: `roundTie` rounds so, and two roundings of one rational are equal. -/
theorem roundTieIsNearest : Obligations.RoundTieIsNearest :=
  fun tie t => ⟨roundsTo_roundTie tie t, fun _ h => h.unique (roundsTo_roundTie tie t)⟩

/-! ## Raw values and containers (R67, R70, R71) -/

theorem InRange.toInt_ofInt {n : Nat} {i : Int} (hn : 1 ≤ n) (h : InRange n i) : (BitVec.ofInt n i).toInt = i := by
  obtain ⟨hlo, hhi⟩ := h
  exact BitVec.toInt_ofInt_eq_self hn hlo (by omega)

/-- The raw value is the integer the claims speak of. -/
theorem rawValue_of_isRaw {n : Nat} {a : DWord} {raw : Int} (hn : 1 ≤ n) (h : IsRaw n a raw) : rawValue n a = raw := by
  obtain ⟨hrange, hmod⟩ := h
  have hmod : raw % (2 ^ n : Nat) = a.toNat % (2 ^ n : Nat) := by exact_mod_cast hmod
  calc rawValue n a = ((a.toNat : Int) % (2 ^ n : Nat)).bmod (2 ^ n) := by
        rw [rawValue, BitVec.toInt_setWidth, Int.emod_bmod]
    _ = raw := by rw [← hmod, Int.emod_bmod, ← BitVec.toInt_ofInt, hrange.toInt_ofInt hn]

/-- The container is one of the four widths, and holds N bits. -/
theorem containerWidth_bounds {n : Nat} (hn : n ≤ 64) :
    n ≤ containerWidth n ∧ 8 ≤ containerWidth n ∧ containerWidth n ≤ 64 := by
  unfold containerWidth
  split_ifs <;> omega

theorem container_toNat {n : Nat} (hn : n ≤ 64) (i : Int) :
    (container n i).toNat = (BitVec.ofInt (containerWidth n) i).toNat :=
  BitVec.toNat_setWidth_of_le (containerWidth_bounds hn).2.2

/-- More bits hold more values. -/
theorem InRange.mono {m n : Nat} {i : Int} (hmn : m ≤ n) (h : InRange m i) : InRange n i := by
  have hpow : (2 : Int) ^ (m - 1) ≤ 2 ^ (n - 1) := pow_le_pow_right₀ (by decide) (by omega)
  unfold InRange at *
  omega

/-- Settles O47: an N-bit value is a C(N)-bit value too. -/
theorem containerHoldsValue : Obligations.ContainerHoldsValue := by
  intro n i h₁ h₂ hi
  obtain ⟨hle, hpos, h64⟩ := containerWidth_bounds h₂
  refine ⟨rfl, container_toNat h₂ i ▸ BitVec.isLt _, ?_⟩
  rw [container, BitVec.setWidth_setWidth_of_le _ h64, BitVec.setWidth_eq]
  exact (hi.mono hle).toInt_ofInt (by omega)

/-- The low N bits of the container are the value's. -/
theorem isRaw_container {n : Nat} {i : Int} (hn : n ≤ 64) (hi : InRange n i) : IsRaw n (container n i) i := by
  have hpos : (0 : Int) < (2 ^ containerWidth n : Nat) := by positivity
  have hdvd : (2 : Int) ^ n ∣ (2 ^ containerWidth n : Nat) := by
    exact_mod_cast Nat.pow_dvd_pow 2 (containerWidth_bounds hn).1
  refine ⟨hi, ?_⟩
  rw [container_toNat hn, BitVec.toNat_ofInt, Int.toNat_of_nonneg (Int.emod_nonneg _ hpos.ne'),
    Int.emod_emod_of_dvd _ hdvd]

theorem rawValue_container {n : Nat} {i : Int} (h₁ : 1 ≤ n) (h₂ : n ≤ 64) (hi : InRange n i) :
    rawValue n (container n i) = i :=
  rawValue_of_isRaw h₁ (isRaw_container h₂ hi)

/-! ## TOINT (R72) -/

/-- A finite operand is placed as the integer it rounds to, INEXACT when that is not its scaled value. -/
theorem toint_of_finite {tie : Tie} {r : Nat} {a : DWord} {sig exp i : Int} (ha : f64Value a = .finite sig exp)
    (hi : RoundsTo tie (dyadic sig exp * 2 ^ r) i) :
    ∃ inexact : Bool, (inexact = true ↔ (i : ℚ) ≠ dyadic sig exp * 2 ^ r) ∧
      ∀ n sat, toint tie n r sat a = placeRounded n sat inexact (.int i) := by
  rw [← scalingIsExact] at hi ⊢
  obtain rfl := hi.unique (roundsTo_roundTie tie (scale sig exp r))
  refine ⟨_, ?_, fun n sat => by rw [toint, ha]⟩
  rw [Bool.not_eq_true', ← Bool.not_eq_true, Scaled.isInt_iff]

theorem toint_of_inf {tie : Tie} {r : Nat} {a : DWord} {neg : Bool} (ha : f64Value a = .inf neg) (n : Nat) (sat : Bool) :
    toint tie n r sat a = placeRounded n sat false (if neg then .negInf else .posInf) := by
  rw [toint, ha]

theorem aboveRange_int_iff (n : Nat) (i : Int) : aboveRange n (.int i) = true ↔ hi n < i := decide_eq_true_iff

theorem belowRange_int_iff (n : Nat) (i : Int) : belowRange n (.int i) = true ↔ i < lo n := decide_eq_true_iff

theorem aboveRange_or_belowRange {n : Nat} {i : Int} (h : ¬ InRange n i) :
    aboveRange n (.int i) = true ∨ belowRange n (.int i) = true := by
  rw [aboveRange_int_iff, belowRange_int_iff]
  rw [inRange_iff] at h
  omega

theorem aboveRange_or_belowRange_inf (n : Nat) (neg : Bool) :
    aboveRange n (if neg then .negInf else .posInf) = true ∨ belowRange n (if neg then .negInf else .posInf) = true := by
  cases neg with
  | true => exact .inr rfl
  | false => exact .inl rfl

/-- The end of a command that succeeds, in the terms claims are stated in. -/
theorem exec_of_done_flags {i : Instr} {s : State} {flags : Flags} {res : DWord}
    (h : completionOf i s = done flags res) :
    exec i s = .next (completedWith s 1 flags.sat flags.inexact res) := by
  rw [exec_eq, h, finish_eq_completedWith]
  rfl

/-- Settles O48: a rounded value in range is placed as it is. -/
theorem tointConvertsInRange : Obligations.TointConvertsInRange := by
  intro s n r sat sig exp i _ _ _ ha hi hrange
  obtain ⟨inexact, hinexact, htoint⟩ := toint_of_finite ha hi
  exact ⟨inexact, hinexact, exec_of_done_flags (i := .toint n r sat)
    ((htoint n sat).trans (placeRounded_inRange hrange sat inexact))⟩

/-- Settles O49: an infinity and a rounded value out of range meet one check. -/
theorem tointRejectsOutOfRange : Obligations.TointRejectsOutOfRange := by
  rintro s n r _ _ _ (⟨neg, ha⟩ | ⟨sig, exp, i, ha, hi, hrange⟩)
  · exact exec_of_failed (i := .toint n r false) (code := .range)
      ((toint_of_inf ha n false).trans (placeRounded_reject (aboveRange_or_belowRange_inf n neg) false))
  · obtain ⟨inexact, -, htoint⟩ := toint_of_finite ha hi
    exact exec_of_failed (i := .toint n r false) (code := .range)
      ((htoint n false).trans (placeRounded_reject (aboveRange_or_belowRange hrange) inexact))

theorem lo_eq (n : Nat) : lo n = -2 ^ (n - 1) := by rw [lo, pow2_eq]

theorem hi_eq (n : Nat) : hi n = 2 ^ (n - 1) - 1 := by rw [hi, pow2_eq]

/-- With SAT = 1 a value out of range is clamped to the bound of its sign. -/
theorem placeRounded_saturate {n : Nat} {i : Int} (h : ¬ InRange n i) (inexact : Bool) :
    placeRounded n true inexact (.int i) = done { sat := true, inexact := inexact }
      (container n (if i < 0 then -(2 : Int) ^ (n - 1) else (2 : Int) ^ (n - 1) - 1)) := by
  have hlo := lo_neg n
  have hhi := hi_nonneg n
  rw [inRange_iff] at h
  split
  · next hneg => rw [← lo_eq, placeRounded_below ((belowRange_int_iff n i).2 (by omega))]
  · next hpos => rw [← hi_eq, placeRounded_above ((aboveRange_int_iff n i).2 (by omega))]

/-- Settles O50: a rounded value out of range is clamped to the bound of its sign. -/
theorem tointSaturatesFinite : Obligations.TointSaturatesFinite := by
  intro s n r sig exp i _ _ _ ha hi hrange
  obtain ⟨inexact, hinexact, htoint⟩ := toint_of_finite ha hi
  exact ⟨inexact, hinexact, exec_of_done_flags (i := .toint n r true)
    ((htoint n true).trans (placeRounded_saturate hrange inexact))⟩

/-- Settles O51: an infinity is clamped to the bound of its sign, and nothing was rounded. -/
theorem tointSaturatesInfinity : Obligations.TointSaturatesInfinity := by
  intro s n r neg ha
  have hplace : toint s.params.fxTie n r true s.operandA = done { sat := true, inexact := false } (container n
      (if neg then -(2 : Int) ^ (n - 1) else (2 : Int) ^ (n - 1) - 1)) := by
    rw [toint_of_inf ha, ← lo_eq, ← hi_eq]
    cases neg with
    | true => exact placeRounded_below rfl false
    | false => exact placeRounded_above rfl false
  exact exec_of_done_flags (i := .toint n r true) hplace

/-- Settles O52: NaN is rejected before SAT is read. -/
theorem tointRejectsNaN : Obligations.TointRejectsNaN := by
  intro s n r sat ha
  exact exec_of_failed (i := .toint n r sat) (code := .nan) (by rw [completionOf, toint, ha])

/-! ## Rounding to a binary64 integer (R73) -/

/-- The magnitude `m` in multiples of `unit`, rounded to nearest, ties to even. -/
def roundedUnits (m unit : Nat) : Nat :=
  if decide (2 * (m % unit) > unit) || (decide (2 * (m % unit) = unit) && decide (m / unit % 2 = 1)) then
    m / unit + 1
  else m / unit

/-- `rne_f64(r)` rounds the magnitude in the unit that leaves it 53 bits. -/
theorem rneF64_eq_signed (r : Int) :
    rneF64 r = signed (decide (r < 0))
      (roundedUnits r.natAbs (2 ^ (r.natAbs.log2 - 52)) * 2 ^ (r.natAbs.log2 - 52)) := rfl

theorem roundedUnits_nearest (m : Nat) {unit : Nat} (hunit : 0 < unit) :
    2 * |(roundedUnits m unit * unit : Int) - m| < unit ∨
      (2 * |(roundedUnits m unit * unit : Int) - m| = unit ∧ roundedUnits m unit % 2 = 0) := by
  have hrem := Nat.mod_lt m hunit
  have hm : (m : Int) = (m / unit : Nat) * unit + (m % unit : Nat) := by
    exact_mod_cast (Nat.div_add_mod' m unit).symm
  unfold roundedUnits
  simp only [Bool.or_eq_true, Bool.and_eq_true, decide_eq_true_eq]
  generalize m / unit = q, m % unit = rem at *
  split
  · next hup =>
    have habs : |((q + 1 : Nat) * unit : Int) - m| = unit - rem := by
      rw [hm, abs_of_nonneg] <;> push_cast <;> linarith
    omega
  · next hdown =>
    have habs : |(q * unit : Int) - m| = rem := by
      rw [hm, abs_of_nonpos] <;> linarith
    omega

theorem signed_decide_natAbs (r : Int) : signed (decide (r < 0)) r.natAbs = r := by
  by_cases h : r < 0
  · simp [signed, h, abs_of_neg]
  · simp [signed, h, abs_of_nonneg (not_lt.1 h)]

theorem signed_mul (s : Bool) (m c : Nat) : signed s (m * c) = signed s m * c := by
  cases s <;> simp [signed]

theorem signed_emod_two (s : Bool) (m : Nat) : signed s m % 2 = 0 ↔ m % 2 = 0 := by
  unfold signed
  split <;> omega

theorem abs_signed_sub_signed (s : Bool) (m c : Nat) : |signed s m - signed s c| = |(m : Int) - c| := by
  cases s with
  | false => rfl
  | true =>
    change |-(m : Int) - -(c : Int)| = _
    rw [neg_sub_neg, abs_sub_comm]

/-- With `log2 m - 52` bits dropped, a magnitude keeps 53 bits. -/
theorem magnitude_bounds (m : Nat) :
    (m.log2 - 52 = 0 ∨ 2 ^ (52 + (m.log2 - 52)) ≤ m) ∧ m < 2 ^ (53 + (m.log2 - 52)) := by
  refine ⟨?_, Nat.lt_log2_self.trans_le (Nat.pow_le_pow_right two_pos (by omega))⟩
  by_cases h : m.log2 ≤ 52
  · exact .inl (by omega)
  · have hm : m ≠ 0 := by
      rintro rfl
      simp at h
    rw [Nat.add_sub_cancel' (by omega)]
    exact .inr (Nat.log2_self_le hm)

/-- The distance and the parity are those of the magnitudes, the sign being `r`'s. -/
theorem roundsToEven_rneF64 (r : Int) : RoundsToEven r (rneF64 r) := by
  obtain ⟨hlow, hhigh⟩ := magnitude_bounds r.natAbs
  have hnear := roundedUnits_nearest r.natAbs (Nat.two_pow_pos (r.natAbs.log2 - 52))
  have hrne := rneF64_eq_signed r
  generalize r.natAbs.log2 - 52 = k at *
  generalize roundedUnits r.natAbs (2 ^ k) = u at *
  have hdist : |rneF64 r - r| = |(u * (2 ^ k : Nat) : Int) - r.natAbs| := by
    have h := abs_signed_sub_signed (decide (r < 0)) (u * 2 ^ k) r.natAbs
    rw [signed_decide_natAbs, ← hrne] at h
    exact_mod_cast h
  refine ⟨k, signed (decide (r < 0)) u, ?_, ?_, ?_, ?_⟩
  · rw [Int.abs_eq_natAbs]
    exact_mod_cast hlow
  · rw [Int.abs_eq_natAbs]
    exact_mod_cast hhigh
  · rw [hrne, signed_mul]
    push_cast
    rfl
  · rw [hdist, signed_emod_two]
    exact_mod_cast hnear

/-- Of the multiples of a unit, one at most half a unit away is nearest. -/
theorem abs_sub_le_of_multiple {unit m m' r : Int} (hnear : 2 * |m * unit - r| ≤ unit) :
    |m * unit - r| ≤ |m' * unit - r| := by
  by_cases hm : m = m'
  · rw [hm]
  · have hgap : unit ≤ |m' * unit - m * unit| := by
      have h0 : 0 ≤ unit := by linarith [abs_nonneg (m * unit - r)]
      rw [← sub_mul, abs_mul, abs_of_nonneg h0]
      have : 1 ≤ |m' - m| := Int.one_le_abs (sub_ne_zero.2 (Ne.symm hm))
      exact le_mul_of_one_le_left h0 this
    have htri := abs_sub_le (m' * unit) r (m * unit)
    rw [abs_sub_comm r] at htri
    linarith

/-- A significand in smaller units stays below the significands of `k` further bits. -/
theorem abs_mul_two_pow_lt {m : Int} {j k : Nat} (hm : |m| < 2 ^ 53) (hjk : j < k) : |m * 2 ^ j| ≤ 2 ^ (52 + k) := by
  have hpow : |(2 : Int) ^ j| = 2 ^ j := abs_of_nonneg (by positivity)
  calc |m * 2 ^ j| = |m| * 2 ^ j := by rw [abs_mul, hpow]
    _ ≤ 2 ^ 53 * 2 ^ j := Int.mul_le_mul_of_nonneg_right hm.le (by positivity)
    _ = 2 ^ (53 + j) := (pow_add ..).symm
    _ ≤ 2 ^ (52 + k) := pow_le_pow_right₀ (by decide) (by omega)

/-- No integer of 53 significant bits is nearer: from the unit in the last place up they are its multiples, and the
smaller ones lie beyond the smallest significand of that unit. -/
theorem RoundsToEven.nearest {r q : Int} (h : RoundsToEven r q) {q' : Int} (hq' : FitsSignificand q') :
    |q - r| ≤ |q' - r| := by
  obtain ⟨k, m, hlow, -, rfl, hnear⟩ := h
  obtain ⟨m', j, hm', rfl⟩ := hq'
  have hmultiple {p : Int} : |m * 2 ^ k - r| ≤ |p * 2 ^ k - r| := abs_sub_le_of_multiple (by omega)
  by_cases hkj : k ≤ j
  · have hsplit : m' * 2 ^ j = m' * 2 ^ (j - k) * 2 ^ k := by
      rw [mul_assoc, ← pow_add, Nat.sub_add_cancel hkj]
    rw [hsplit]
    exact hmultiple
  · have hsmall := abs_mul_two_pow_lt hm' (Nat.not_le.1 hkj)
    have hr := hlow.resolve_left (by omega)
    have hup := hmultiple (p := 2 ^ 52)
    have hdown := hmultiple (p := -2 ^ 52)
    rw [neg_mul] at hdown
    rw [pow_add] at hsmall hr
    generalize (2 : Int) ^ 52 * 2 ^ k = s, m' * 2 ^ j = q' at *
    rcases le_total 0 r with h0 | h0
    · rw [abs_of_nonneg h0] at hr
      rw [abs_of_nonpos (by omega : s - r ≤ 0)] at hup
      linarith [(abs_le.1 hsmall).2, neg_abs_le (q' - r)]
    · rw [abs_of_nonpos h0] at hr
      rw [abs_of_nonneg (by omega : 0 ≤ -s - r)] at hdown
      linarith [(abs_le.1 hsmall).1, le_abs_self (q' - r)]

/-- A power of two has one significant bit. -/
theorem fitsSignificand_two_pow (k : Nat) : FitsSignificand (2 ^ k) := ⟨1, k, by decide, (one_mul _).symm⟩

theorem FitsSignificand.neg {q : Int} (h : FitsSignificand q) : FitsSignificand (-q) := by
  obtain ⟨m, k, hm, rfl⟩ := h
  exact ⟨-m, k, by rwa [abs_neg], by rw [neg_mul]⟩

/-- Up to 2^53 every integer fits: one below it has at most 53 bits. -/
theorem fitsSignificand_of_abs_le {q : Int} (h : |q| ≤ 2 ^ 53) : FitsSignificand q := by
  rcases h.lt_or_eq with hlt | heq
  · exact ⟨q, 0, hlt, by rw [pow_zero, mul_one]⟩
  · rcases (abs_eq (by positivity)).1 heq with rfl | rfl
    · exact fitsSignificand_two_pow 53
    · exact (fitsSignificand_two_pow 53).neg

theorem FitsSignificand.mul_two_pow {q : Int} (h : FitsSignificand q) (k : Nat) : FitsSignificand (q * 2 ^ k) := by
  obtain ⟨m, j, hm, rfl⟩ := h
  exact ⟨m, j + k, hm, by rw [pow_add, mul_assoc]⟩

/-- The rounded integer has at most 2^53 units. -/
theorem RoundsToEven.fits {r q : Int} (h : RoundsToEven r q) : FitsSignificand q := by
  obtain ⟨k, m, -, hhigh, rfl, hnear⟩ := h
  refine (fitsSignificand_of_abs_le ?_).mul_two_pow k
  have hpow : |(2 : Int) ^ k| = 2 ^ k := abs_of_nonneg (by positivity)
  have htri := abs_sub_abs_le_abs_sub (m * 2 ^ k) r
  rw [abs_mul, hpow] at htri
  rw [pow_add] at hhigh
  have hpos : (0 : Int) < 2 ^ k := by positivity
  have hlt : |m| * 2 ^ k < (2 ^ 53 + 1) * 2 ^ k := by
    rw [add_mul]
    omega
  exact Int.lt_add_one_iff.1 (lt_of_mul_lt_mul_right hlt hpos.le)

/-- What fits is rounded to itself, being nearest to itself. -/
theorem RoundsToEven.eq_of_fits {r q : Int} (h : RoundsToEven r q) (hr : FitsSignificand r) : q = r := by
  have hle := h.nearest hr
  rw [sub_self, abs_zero, abs_nonpos_iff, sub_eq_zero] at hle
  exact hle

/-- Rounding does not pass a power of two, which fits. -/
theorem RoundsToEven.abs_le_two_pow {r q : Int} (h : RoundsToEven r q) {k : Nat} (hr : |r| ≤ 2 ^ k) :
    |q| ≤ 2 ^ k := by
  obtain ⟨hlow, hhigh⟩ := abs_le.1 hr
  have hup := h.nearest (fitsSignificand_two_pow k)
  have hdown := h.nearest (fitsSignificand_two_pow k).neg
  rw [abs_of_nonneg (by omega : 0 ≤ 2 ^ k - r)] at hup
  rw [abs_of_nonpos (by omega : -2 ^ k - r ≤ 0)] at hdown
  exact abs_le.2 ⟨by linarith [neg_abs_le (q - r)], by linarith [le_abs_self (q - r)]⟩

theorem rneF64_of_fits {r : Int} (h : FitsSignificand r) : rneF64 r = r := (roundsToEven_rneF64 r).eq_of_fits h

/-- Settles O53: each clause follows from `rneF64` rounding to the unit in the last place. -/
theorem rneF64IsNearestEven : Obligations.RneF64IsNearestEven := by
  intro r hr
  have h := roundsToEven_rneF64 r
  exact ⟨h.fits, fun _ => h.nearest, h, fun hr => h.eq_of_fits (fitsSignificand_of_abs_le hr), h.eq_of_fits,
    h.abs_le_two_pow hr⟩

/-! ## TOFP (R74) -/

/-- The 53-bit significand `bits64` gives a magnitude: its leading bit moved to bit 52. -/
def significand (m : Nat) : Nat :=
  if m.log2 ≤ 52 then m * 2 ^ (52 - m.log2) else m / 2 ^ (m.log2 - 52)

theorem f64Bits_zero (r : Nat) : f64Bits 0 r = 0#64 := if_pos rfl

/-- `bits64` of a nonzero number. -/
theorem f64Bits_of_ne_zero {q : Int} (hq : q ≠ 0) (r : Nat) :
    f64Bits q r = BitVec.ofBool (decide (q < 0)) ++ BitVec.ofNat 11 (q.natAbs.log2 + 1023 - r) ++
      BitVec.ofNat 52 (significand q.natAbs) :=
  if_neg hq

/-- An integer that fits has no bit below its first 53. -/
theorem FitsSignificand.two_pow_dvd_natAbs {q : Int} (h : FitsSignificand q) :
    2 ^ (q.natAbs.log2 - 52) ∣ q.natAbs := by
  obtain ⟨m, k, hm, rfl⟩ := h
  rw [Int.abs_eq_natAbs] at hm
  have hnat : (m * 2 ^ k).natAbs = m.natAbs * 2 ^ k := by
    rw [Int.natAbs_mul, Int.natAbs_pow]
    rfl
  rw [hnat]
  by_cases h0 : m.natAbs = 0
  · rw [h0, Nat.zero_mul]
    exact dvd_zero _
  · have hlog : (m.natAbs * 2 ^ k).log2 < 53 + k := by
      rw [Nat.log2_lt (by positivity), pow_add]
      exact Nat.mul_lt_mul_of_pos_right (by omega) (by positivity)
    exact (Nat.pow_dvd_pow 2 (by omega)).mul_left _

/-- Moving the leading bit is exact for a magnitude that fits. -/
theorem significand_mul_two_pow {m : Nat} (h : 2 ^ (m.log2 - 52) ∣ m) :
    significand m * 2 ^ m.log2 = m * 2 ^ 52 := by
  unfold significand
  split
  · next hle => rw [mul_assoc, ← pow_add, Nat.sub_add_cancel hle]
  · next hlt =>
    have hsplit : m.log2 = m.log2 - 52 + 52 := by omega
    conv_lhs => rw [hsplit, pow_add, ← mul_assoc]
    rw [← hsplit, Nat.div_mul_cancel h]

/-- The leading bit is bit 52. -/
theorem significand_bounds {m : Nat} (hm : m ≠ 0) (h : 2 ^ (m.log2 - 52) ∣ m) :
    2 ^ 52 ≤ significand m ∧ significand m < 2 ^ 53 := by
  have hexact := significand_mul_two_pow h
  have hpos : 0 < 2 ^ m.log2 := Nat.two_pow_pos _
  have hlow := Nat.log2_self_le hm
  have hhigh : m < 2 ^ m.log2 * 2 := Nat.lt_log2_self
  constructor
  · refine Nat.le_of_mul_le_mul_right ?_ hpos
    omega
  · refine Nat.lt_of_mul_lt_mul_right (a := 2 ^ m.log2) ?_
    omega

/-- `bits64(q * 2^-r)` is the pattern of that number, for `q` that fits and is no larger than 2^63 (R68, R74). -/
theorem f64Value_f64Bits {q : Int} (hfits : FitsSignificand q) (hq : |q| ≤ 2 ^ 63) {r : Nat} (hr : r ≤ 63) :
    ∃ sig exp, f64Value (f64Bits q r) = .finite sig exp ∧ dyadic sig exp = (q : ℚ) / 2 ^ r := by
  by_cases h0 : q = 0
  · subst h0
    exact ⟨0, -1074, by rw [f64Bits_zero]; rfl, by simp [dyadic]⟩
  · rw [Int.abs_eq_natAbs] at hq
    have hm : q.natAbs ≠ 0 := Int.natAbs_ne_zero.2 h0
    have htop : q.natAbs.log2 < 64 := (Nat.log2_lt hm).2 (by omega)
    have hexact := significand_mul_two_pow hfits.two_pow_dvd_natAbs
    obtain ⟨hlow, hhigh⟩ := significand_bounds hm hfits.two_pow_dvd_natAbs
    have hsig : 2 ^ 52 + (BitVec.ofNat 52 (significand q.natAbs)).toNat = significand q.natAbs := by
      rw [BitVec.toNat_ofNat]
      omega
    have hexp : (BitVec.ofNat 11 (q.natAbs.log2 + 1023 - r)).toNat = q.natAbs.log2 + 1023 - r := by
      rw [BitVec.toNat_ofNat]
      omega
    refine ⟨signed (decide (q < 0)) (significand q.natAbs), ((q.natAbs.log2 + 1023 - r : Nat) : Int) - 1075, ?_, ?_⟩
    · rw [f64Bits_of_ne_zero h0, f64Value_append, hexp, hsig, if_neg (by omega), if_neg (by omega)]
    · have hq : (q : ℚ) = (-1) ^ (decide (q < 0)).toNat * (q.natAbs : ℚ) := by
        rw [← cast_signed, signed_decide_natAbs]
      have hexact : (significand q.natAbs : ℚ) * 2 ^ q.natAbs.log2 = q.natAbs * 2 ^ 52 := by exact_mod_cast hexact
      have hpow : (2 : ℚ) ^ (((q.natAbs.log2 + 1023 - r : Nat) : Int) - 1075) =
          2 ^ q.natAbs.log2 / 2 ^ 52 / 2 ^ r := by
        rw [← zpow_natCast, ← zpow_natCast, ← zpow_natCast, ← zpow_sub₀ two_ne_zero, ← zpow_sub₀ two_ne_zero]
        congr 1
        omega
      rw [dyadic, cast_signed, hpow, hq, mul_div_assoc', mul_div_assoc', mul_assoc, hexact]
      field_simp

theorem abs_le_of_inRange {n : Nat} {i : Int} (hn : n ≤ 64) (h : InRange n i) : |i| ≤ 2 ^ 63 := by
  have hpow : (2 : Int) ^ (n - 1) ≤ 2 ^ 63 := pow_le_pow_right₀ (by decide) (by omega)
  obtain ⟨hlo, hhi⟩ := h
  exact abs_le.2 ⟨by omega, by omega⟩

/-- The pattern that TOFP gives for a raw value has the value of the rounded one over 2^R. -/
theorem f64Value_f64Bits_rneF64 {n r : Nat} {raw : Int} (hn : n ≤ 64) (hr : r ≤ 63) (hraw : InRange n raw) :
    ∃ sig exp, f64Value (f64Bits (rneF64 raw) r) = .finite sig exp ∧ dyadic sig exp = (rneF64 raw : ℚ) / 2 ^ r :=
  have hround := roundsToEven_rneF64 raw
  f64Value_f64Bits hround.fits (hround.abs_le_two_pow (abs_le_of_inRange hn hraw)) hr

theorem tofp_of_isRaw {n : Nat} {a : DWord} {raw : Int} (hn : 1 ≤ n) (hraw : IsRaw n a raw) (r : Nat) :
    tofp n r a = done { sat := false, inexact := decide (rneF64 raw ≠ raw) } (f64Bits (rneF64 raw) r) := by
  rw [tofp, rawValue_of_isRaw hn hraw]

/-- Settles O54, with `rneF64` as the rounding. -/
theorem tofpConverts : Obligations.TofpConverts := by
  intro s n r raw h₁ h₂ hr hraw
  obtain ⟨sig, exp, hval, hdyadic⟩ := f64Value_f64Bits_rneF64 h₂ hr hraw.1
  refine ⟨rneF64 raw, _, _, sig, exp, roundsToEven_rneF64 raw, decide_eq_true_iff, hval, hdyadic, ?_,
    exec_of_done_flags (i := .tofp n r) (tofp_of_isRaw h₁ hraw r)⟩
  rintro rfl
  exact f64Bits_zero r

/-! ## Quantization (R75) -/

/-- What a finite pattern rounds to fits 53 bits: the scaled value is an integer, with the pattern's significand, or
smaller than that significand. -/
theorem fits_of_roundsTo {tie : Tie} {r : Nat} {a : DWord} {sig exp i : Int} (ha : f64Value a = .finite sig exp)
    (hi : RoundsTo tie (dyadic sig exp * 2 ^ r) i) :
    FitsSignificand i ∧ ((2 : Int) ^ 53 < |i| → (i : ℚ) = dyadic sig exp * 2 ^ r) := by
  have hsig := abs_sig_lt_of_f64Value ha
  have hscale : dyadic sig exp * 2 ^ r = sig * 2 ^ (exp + r) := by
    rw [dyadic, mul_assoc, ← zpow_natCast, ← zpow_add₀ two_ne_zero]
  rw [hscale] at hi ⊢
  rcases le_or_gt 0 (exp + r) with hexp | hexp
  · obtain ⟨k, hk⟩ := Int.eq_ofNat_of_zero_le hexp
    have hint : (sig : ℚ) * 2 ^ (exp + r) = (sig * 2 ^ k : Int) := by
      rw [hk, zpow_natCast]
      push_cast
      rfl
    rw [hint] at hi ⊢
    obtain rfl := hi.unique (roundsTo_self tie _)
    exact ⟨⟨sig, k, hsig, rfl⟩, fun _ => rfl⟩
  · have hle : |(sig : ℚ) * 2 ^ (exp + r)| ≤ |(sig : ℚ)| := by
      have hpow : (2 : ℚ) ^ (exp + r) ≤ 1 := zpow_le_one_of_nonpos₀ one_le_two hexp.le
      rw [abs_mul, abs_of_nonneg (by positivity : (0 : ℚ) ≤ 2 ^ (exp + r))]
      exact mul_le_of_le_one_right (abs_nonneg _) hpow
    have hsig : |(sig : ℚ)| + 1 ≤ 2 ^ 53 := by exact_mod_cast hsig
    have hi : |(i : ℚ)| ≤ 2 ^ 53 := by
      linarith [abs_sub_abs_le_abs_sub (i : ℚ) (sig * 2 ^ (exp + r)), hi.abs_sub_le]
    have hi : |i| ≤ 2 ^ 53 := by exact_mod_cast hi
    exact ⟨fitsSignificand_of_abs_le hi, fun h => absurd hi (not_le.2 h)⟩

theorem placeRounded_code_ok {n : Nat} {inexact : Bool} {i : Int}
    (h : (placeRounded n false inexact (.int i)).code = .ok) : InRange n i := by
  by_contra hrange
  rw [placeRounded_reject (aboveRange_or_belowRange hrange)] at h
  cases h

/-- Settles O55: what TOINT accepts fits 53 bits, so that TOFP does not round it, and rounding moved the scaled value
by at most 1/2, or not at all beyond 2^53. -/
theorem floatRawFloatQuantization : Obligations.FloatRawFloatQuantization := by
  intro tie n r a sig exp h₁ h₂ hr ha hok
  obtain ⟨i, hi⟩ : ∃ i, RoundsTo tie (dyadic sig exp * 2 ^ r) i :=
    ⟨_, scalingIsExact sig exp r ▸ roundsTo_roundTie tie _⟩
  obtain ⟨inexact, -, htoint⟩ := toint_of_finite ha hi
  rw [htoint] at hok ⊢
  have hrange := placeRounded_code_ok hok
  obtain ⟨hfits, hbig⟩ := fits_of_roundsTo ha hi
  rw [placeRounded_inRange hrange, done_res, rawValue_container h₁ h₂ hrange,
    tofp_of_isRaw h₁ (isRaw_container h₂ hrange), done_res]
  obtain ⟨sig', exp', hval, hdyadic⟩ := f64Value_f64Bits_rneF64 h₂ hr hrange
  rw [rneF64_of_fits hfits] at hdyadic
  have hpow : (0 : ℚ) < 2 ^ r := by positivity
  have herr : dyadic sig' exp' - dyadic sig exp = (i - dyadic sig exp * 2 ^ r) / 2 ^ r := by
    rw [hdyadic]
    field_simp
  refine ⟨sig', exp', hval, ?_, fun h => ?_⟩
  · rw [herr, abs_div, abs_of_pos hpow, pow_succ', ← div_div]
    exact div_le_div_of_nonneg_right hi.abs_sub_le hpow.le
  · rw [← sub_eq_zero, herr, hbig h, sub_self, zero_div]

/-- Settles O56: TOFP does not round a raw value up to 2^53, and TOINT scales its result back to it. -/
theorem rawFloatRawRoundTrip : Obligations.RawFloatRawRoundTrip := by
  intro tie n r sat a raw h₁ h₂ hr hraw hle
  have hrne := rneF64_of_fits (fitsSignificand_of_abs_le hle)
  obtain ⟨sig, exp, hval, hdyadic⟩ := f64Value_f64Bits_rneF64 h₂ hr hraw.1
  have hscaled : dyadic sig exp * 2 ^ r = raw := by
    rw [hdyadic, hrne]
    field_simp
  obtain ⟨inexact, hinexact, htoint⟩ := toint_of_finite hval (hscaled ▸ roundsTo_self tie raw)
  have hexact : inexact = false := by
    rw [← Bool.not_eq_true, hinexact, hscaled, not_not]
  rw [tofp_of_isRaw h₁ hraw, done_res, htoint, placeRounded_inRange hraw.1, hexact, hrne]
  exact ⟨congrArg (Flags.mk false) (decide_eq_false (not_not.2 rfl)), rfl⟩

/-- Settles O57, by running the converter under each tie rule. -/
theorem namedFixedPointValues : Obligations.NamedFixedPointValues := by
  intro tie
  cases tie with
  | away => decide
  | even => decide

end Sys2Proof.Machine

/-! Proofs about the exceptions (60_exceptions.md): which error a CMD write reports, that a bus error and a command
error never meet, and that instances share no state. -/

namespace Sys2Proof.Machine

/-! ## The first error in the order is reported (R80) -/

/-- STATUS.CODE after a completion (R18, R79). -/
theorem codeField_completedWith (s : State) (code : Nat) (sat inexact : Bool) (res : DWord) :
    codeField (completedWith s code sat inexact res).regs.status = BitVec.ofNat 4 code := by
  apply BitVec.eq_of_toNat_eq
  simp only [codeField, completedWith, BitVec.extractLsb'_toNat, BitVec.toNat_ofNat, Nat.shiftRight_zero]
  omega

/-- What a CMD write reports is the code its word completes with. -/
theorem codeField_of_step_cmdWrite {s t : State} {c : Word} {rest : List Input} {code : Nat} {sat inexact : Bool}
    {res : DWord} (hp : s.pending = cmdWrite c :: rest) (ht : step s = .next t)
    (h : execute c (cmdWritten s c rest) = .next (completedWith (cmdWritten s c rest) code sat inexact res)) :
    codeField t.regs.status = BitVec.ofNat 4 code := by
  cases ((step_cmdWrite_eq_execute hp).trans h).symm.trans ht
  exact codeField_completedWith _ _ _ _ _

theorem execute_of_decode_illegalOpcode {c : Word} (h : decode c = .illegalOpcode) (s : State) :
    execute c s = .next (failedWith s 2) := by
  rw [execute_eq, completionOfWord, h]
  exact congrArg _ (finish_failed .illegalOpcode s)

theorem execute_of_decode_reservedField {c : Word} (h : decode c = .reservedField) (s : State) :
    execute c s = .next (failedWith s 3) := by
  rw [execute_eq, completionOfWord, h]
  exact congrArg _ (finish_failed .reservedField s)

/-- TOINT of a number or an infinity completes with OK when it saturates or the operand is in range (R72). -/
theorem exec_toint_ok {s : State} {n r : Nat} {sat : Bool} (hw : (Instr.toint n r sat).wf = true)
    (hnan : f64Value s.operandA ≠ .nan) (h : sat = true ∨ ¬ OutOfRange s.params.fxTie n r s.operandA) :
    ∃ clamped inexact res, exec (.toint n r sat) s = .next (completedWith s 1 clamped inexact res) := by
  obtain ⟨h₁, h₂, hr⟩ := (fixedPointFits_iff n r).1 hw
  cases ha : f64Value s.operandA with
  | nan => exact absurd ha hnan
  | inf neg =>
    obtain rfl := h.resolve_right fun hin => hin (.inl ⟨neg, ha⟩)
    exact ⟨_, _, _, tointSaturatesInfinity s n r neg ha⟩
  | finite sig exp =>
    obtain ⟨i, hi⟩ : ∃ i, RoundsTo s.params.fxTie (dyadic sig exp * 2 ^ r) i :=
      ⟨_, scalingIsExact sig exp r ▸ roundsTo_roundTie s.params.fxTie _⟩
    by_cases hrange : InRange n i
    · obtain ⟨inexact, -, hexec⟩ := tointConvertsInRange s n r sat sig exp i h₁ h₂ hr ha hi hrange
      exact ⟨_, inexact, _, hexec⟩
    · obtain rfl := h.resolve_right fun hin => hin (.inr ⟨sig, exp, i, ha, hi, hrange⟩)
      obtain ⟨inexact, -, hexec⟩ := tointSaturatesFinite s n r sig exp i h₁ h₂ hr ha hi hrange
      exact ⟨_, inexact, _, hexec⟩

/-- Settles O12: one way to complete for each outcome of the decoder and each check of the decoded command. -/
theorem firstErrorIsReported : Obligations.FirstErrorIsReported := by
  intro s t c rest hp ht
  cases hd : decode c with
  | illegalOpcode => exact codeField_of_step_cmdWrite hp ht (execute_of_decode_illegalOpcode hd _)
  | reservedField => exact codeField_of_step_cmdWrite hp ht (execute_of_decode_reservedField hd _)
  | command i =>
    have hcode {code : Nat} {sat inexact : Bool} {res : DWord}
        (h : exec i (cmdWritten s c rest) = .next (completedWith (cmdWritten s c rest) code sat inexact res)) :
        codeField t.regs.status = BitVec.ofNat 4 code :=
      codeField_of_step_cmdWrite hp ht ((execute_of_decode_command hd _).trans h)
    obtain ⟨-, hw⟩ := encodeDecodeRoundTrip c i hd
    cases i with
    | bfx pos bits =>
      dsimp only
      split
      · exact hcode (badFieldCompletes _ pos bits ‹_›).1
      · exact hcode (exec_of_done (bfx_of_legal _ (by omega) _))
    | bfd pos bits =>
      dsimp only
      split
      · exact hcode (badFieldCompletes _ pos bits ‹_›).2
      · exact hcode (exec_of_done (bfd_of_legal _ (by omega) _ _))
    | tobe size => exact hcode (exec_of_done rfl)
    | frombe size => exact hcode (exec_of_done rfl)
    | toint n r sat =>
      refine ⟨fun hnan => hcode (tointRejectsNaN _ n r sat hnan), fun _ hsat hout => ?_, fun hnan hok => ?_⟩
      · obtain ⟨h₁, h₂, hr⟩ := (fixedPointFits_iff n r).1 hw
        subst hsat
        exact hcode (tointRejectsOutOfRange _ n r h₁ h₂ hr hout)
      · obtain ⟨_, _, _, hexec⟩ := exec_toint_ok (s := cmdWritten s c rest) hw hnan hok
        exact hcode hexec
    | tofp n r => exact hcode (exec_of_done_flags rfl)

/-! ## One response for each access (R28, R81) -/

/-- A legal access is taken off and answered OK. -/
theorem step_legal {s : State} {a : Access} {rest : List Input} (hp : s.pending = .access a :: rest)
    (hl : a.legal = true) :
    ∃ t r, step s = .next t ∧ t.pending = rest ∧ t.responses = s.responses ++ [r] ∧ r.code = .ok := by
  cases a with
  | read off width =>
    obtain ⟨x, hx⟩ := Option.isSome_iff_exists.1 hl
    obtain ⟨rfl, rfl⟩ := (readTarget_eq_some_iff off width x).1 hx
    exact ⟨_, _, step_read_register x hp, rfl, rfl, rfl⟩
  | write off width v =>
    obtain ⟨t, ht, -, hpending, hresponses⟩ := performWrite_answers off width v { s with pending := rest }
    rw [if_pos hl] at hresponses
    exact ⟨t, writeOk, (step_write hp).trans ht, hpending, hresponses, rfl⟩

/-- An illegal access is only answered, with ERROR (R29). -/
theorem step_illegal {s : State} {a : Access} {rest : List Input} (hp : s.pending = .access a :: rest)
    (hl : ¬ a.legal = true) : ∃ r, r.code = .error ∧ step s = .next (answered s rest r) := by
  cases a with
  | read off width => exact ⟨readError, rfl, step_illegalRead hp hl⟩
  | write off width v => exact ⟨writeError, rfl, step_illegalWrite hp hl⟩

/-- Settles O20: a legal access is answered OK, and an illegal one only with ERROR. -/
theorem everyAccessGetsOneResponse : Obligations.EveryAccessGetsOneResponse := by
  refine ⟨fun s a rest hp => ?_, fun v => (write_legal_iff 0 4 v).2 (by decide)⟩
  by_cases hl : a.legal = true
  · obtain ⟨t, r, ht, hpending, hresponses, hr⟩ := step_legal hp hl
    exact ⟨t, r, ht, hpending, hresponses, by simp [hr, hl], by simp [hr]⟩
  · obtain ⟨r, hr, ht⟩ := step_illegal hp hl
    exact ⟨_, r, ht, rfl, rfl, by simp [hr, hl], fun _ => rfl⟩

/-! ## Instances share no state (R27, R89) -/

/-- Everything a step at index `k` can do: nothing where no block stands there, or that block's own step. -/
theorem Platform.stepAt_cases {p q : Platform} {k : Nat} (h : p.stepAt k = .next q) :
    (p[k]? = none ∧ q = p) ∨ ∃ s t, p[k]? = some s ∧ step s = .next t ∧ q = p.set k t := by
  unfold Platform.stepAt at h
  cases hk : p[k]? with
  | none =>
    rw [hk] at h
    cases h
    exact .inl ⟨rfl, rfl⟩
  | some s =>
    obtain ⟨t, ht⟩ := everyStepAnswersNext s
    simp only [hk, ht] at h
    cases h
    exact .inr ⟨s, t, rfl, ht, rfl⟩

theorem Platform.getElem?_deliver (p : Platform) (address : Nat) (t : Transfer) (k : Nat) :
    (p.deliver address t)[k]? = p[k]?.map (·.deliver address t) := List.getElem?_map

/-- A transfer changes a block only at an address of its window. -/
theorem window_of_deliver_ne {s : State} {address : Nat} {t : Transfer} (h : s.deliver address t ≠ s) :
    s.params.base ≤ address ∧ address < s.params.base + 32 := by
  have hin : ¬ (address < s.params.base ∨ s.params.base + 32 ≤ address) :=
    fun hout => h ((windowDecoding s address t).2 hout)
  omega

/-- Aligned windows with an address in common are one window. -/
theorem base_eq_of_common_address {p q : Params} (hp : p.wf) (hq : q.wf) {address : Nat}
    (hpa : p.base ≤ address ∧ address < p.base + 32) (hqa : q.base ≤ address ∧ address < q.base + 32) :
    p.base = q.base := by
  unfold Params.wf at hp hq
  omega

/-- The instances of a well-formed platform are told apart by BASE (R89). -/
theorem Platform.index_eq_of_base_eq {p : Platform} (hp : p.wf) {j k : Nat} {a b : State} (ha : p[j]? = some a)
    (hb : p[k]? = some b) (h : a.params.base = b.params.base) : j = k := by
  obtain ⟨hj, -⟩ := List.getElem?_eq_some_iff.1 ha
  refine (List.getElem?_inj (by simpa using hj) hp.2).1 ?_
  rw [List.getElem?_map, List.getElem?_map, ha, hb, Option.map_some, Option.map_some, h]

/-- Settles O22: a step sets its own entry of the list, and two blocks a transfer changes would share a window. -/
theorem instancesAreIndependent : Obligations.InstancesAreIndependent := by
  refine ⟨fun p q k h => ?_, fun p address u j k a b hp hjk ha hb hja => ?_⟩
  · obtain ⟨-, rfl⟩ | ⟨_, t, -, -, rfl⟩ := Platform.stepAt_cases h
    · exact ⟨rfl, fun _ _ => rfl⟩
    · exact ⟨List.length_set, fun j hj => List.getElem?_set_ne hj.symm⟩
  · rw [Platform.getElem?_deliver, ha, Option.map_some, ne_eq, Option.some_inj] at hja
    rw [Platform.getElem?_deliver, hb, Option.map_some, Option.some_inj]
    by_contra hkb
    have hbase := base_eq_of_common_address (hp.1 a (List.mem_of_getElem? ha)) (hp.1 b (List.mem_of_getElem? hb))
      (window_of_deliver_ne hja) (window_of_deliver_ne hkb)
    exact hjk (Platform.index_eq_of_base_eq hp ha hb hbase)

end Sys2Proof.Machine

/-! Proofs about reset (70_reset_and_hazards.md): what the reset step leaves, the invariants of STATUS at reset, and
that CODE is NONE exactly until the first command completes. -/

namespace Sys2Proof.Machine

/-! ## The reset step (R92, R93) -/

theorem step_reset {s : State} {rest : List Input} (h : s.pending = .reset :: rest) :
    step s = .next (performReset { s with pending := rest }) := by
  unfold step takePending
  rw [h]
  rfl

theorem performReset_result (s : State) : (performReset s).result = 0#64 := by
  change Regs.reset.resHi ++ Regs.reset.resLo = 0#64
  decide

/-- Settles O23, register by register of the state the reset step leaves. -/
theorem resetStepClearsRegisters : Obligations.ResetStepClearsRegisters :=
  fun _ _ h => ⟨_, step_reset h, rfl, rfl, rfl, rfl, rfl, rfl, rfl, rfl, rfl, rfl⟩

/-! ## The invariants of STATUS at reset (R92) -/

/-- Settles O30: STATUS and RES are 0 at reset, and that is legal. -/
theorem statusLegalAtReset : Obligations.StatusLegalAtReset := statusLegal_of_zero rfl rfl

/-- Settles O32: CMD, STATUS and RES are 0 at reset, as before any command. -/
theorem resetShowsNoCommand : Obligations.ResetShowsNoCommand := .inl ⟨rfl, rfl, rfl⟩

/-! ## CODE is NONE until the first command completes (R95) -/

/-- After a reset step CODE is NONE and RES reads 0. -/
theorem none_of_step_reset {s t : State} (hp : s.pending.head? = some .reset) (h : step s = .next t) :
    codeField t.regs.status = 0#4 ∧ t.result = 0#64 := by
  obtain ⟨rest, hrest⟩ := List.head?_eq_some_iff.1 hp
  cases (step_reset hrest).symm.trans h
  exact ⟨rfl, performReset_result _⟩

/-- A CMD write ends in a completion, whose code is never NONE. -/
theorem codeField_ne_none_of_step_cmdWrite {s t : State} {c : Word} {rest : List Input}
    (hp : s.pending = cmdWrite c :: rest) (h : step s = .next t) : codeField t.regs.status ≠ 0#4 := by
  cases (step_cmdWrite_eq_finish hp).symm.trans h
  rw [finish_status, ne_eq, codeField_statusWord_eq_zero_iff]
  exact (completionOfWord_sound c (cmdWritten s c rest)).code_ne_none

/-- An input that is neither a reset nor a CMD write leaves STATUS and RES (R14, R18, R22). -/
theorem status_result_of_step_other {s t : State} (hreset : s.pending.head? ≠ some .reset)
    (hcmd : ∀ v : Word, s.pending.head? ≠ some (.access (.write 0x00 4 v))) (h : step s = .next t) :
    t.regs.status = s.regs.status ∧ t.result = s.result := by
  have hsame : ¬ (t.regs.status ≠ s.regs.status ∨ t.regs.resLo ≠ s.regs.resLo ∨ t.regs.resHi ≠ s.regs.resHi ∨
      t.regs.cmd ≠ s.regs.cmd) := fun hne =>
    ((onlyTheseInputsChangeRegisters s t h).1 hne).elim hreset fun ⟨v, hv⟩ => hcmd v hv
  simp only [not_or, not_not] at hsame
  obtain ⟨hstatus, hlo, hhi, -⟩ := hsame
  exact ⟨hstatus, by rw [State.result, State.result, hlo, hhi]⟩

/-- Settles O24: a reset gives NONE, a CMD write gives another code, and every other input leaves STATUS and RES. -/
theorem noneMeansNoCommandSinceReset : Obligations.NoneMeansNoCommandSinceReset := by
  refine ⟨⟨rfl, rfl⟩, fun _ _ => none_of_step_reset, fun _ _ _ _ => codeField_ne_none_of_step_cmdWrite,
    fun s t hcode hres hcmd h => ?_, fun s t hcode h hnone => ?_⟩
  · by_cases hreset : s.pending.head? = some .reset
    · exact none_of_step_reset hreset h
    · obtain ⟨hstatus, hresult⟩ := status_result_of_step_other hreset hcmd h
      rw [hstatus, hresult]
      exact ⟨hcode, hres⟩
  · by_contra hreset
    have hcmd : ∀ v : Word, s.pending.head? ≠ some (.access (.write 0x00 4 v)) := fun v hv =>
      have ⟨_, hp⟩ := List.head?_eq_some_iff.1 hv
      codeField_ne_none_of_step_cmdWrite hp h hnone
    obtain ⟨hstatus, -⟩ := status_result_of_step_other hreset hcmd h
    exact hcode (hstatus ▸ hnone)

end Sys2Proof.Machine
